-- ==== Sys2Proof/Word.lean ====
section
/-! DEFINITION. The two widths the machine's data has (00_scope.md R9, R13). -/

namespace Sys2Proof

/-- One byte of memory, an 8-bit register view, an 8-bit immediate. -/
abbrev Byte := BitVec 8

/-- A general register, the instruction pointer, an address (00_scope.md R9). `+` and `-` on it are
the spec's `+32` and `-32`, modulo 2^32 (R14). -/
abbrev Word := BitVec 32

/-- A port number of the I/O address space (20_memory.md R46). -/
abbrev Port := BitVec 16

end Sys2Proof
end

