-- ==== Sys2Proof/Config.lean ====
section
/-! DEFINITION. The implementation parameters of 00_scope.md section 4, the fixed collaborator
numbers, and the values the spec leaves open. A constant with no body is a free value: nothing in
Lean can say what it is. -/

namespace Sys2Proof

/-- How PUSH imm8 widens its immediate: the two settings of PUSH_IMM8_EXT (00_scope.md R10). -/
inductive PushExt where
  | sign
  | zero
deriving DecidableEq, Repr, Inhabited

namespace Config

/-- MEM_SIZE (R5): addresses `0` to `memSize - 1` are backed by memory. -/
def memSize : Nat := 1048576

/-- The longest image the loader may place (R8). -/
def maxImageLen : Nat := 512

/-- The longest instruction in bytes (30_encoding.md R61). -/
def maxInstrLen : Nat := 10

/-- LOAD_ADDR at `State.reset`. DESIGN CHOICE (log 1): the spec leaves it open (R6). -/
def loadAddr : Word := 0x7C00#32

/-- INIT_ESP at `State.reset`. DESIGN CHOICE (log 2): the spec leaves it open (R7). -/
def initEsp : Word := 0x7C00#32

/-- INIT_GPR at `State.reset`. DESIGN CHOICE (log 3): the spec leaves it open (R11). -/
def initGpr : Word := 0#32

/-- Each flag of INIT_FLAGS at `State.reset`. DESIGN CHOICE (log 4): the spec leaves it open (R11). -/
def initFlag : Bool := false

/-- What an address that memory does not list reads as. DESIGN CHOICE (log 5): the spec leaves
INIT_MEM open (R11). -/
def unlistedByte : Byte := 0#8

/-- The console port (60_exceptions.md R193). -/
def consolePort : Port := 0x3F8#16

/-- The interrupt vector that is routed to the BIOS video service (44_io_interrupt.md R172). -/
def videoVector : Byte := 0x10#8

/-- The BIOS video sub-function "teletype output" (60_exceptions.md R195). -/
def teletypeFunction : Byte := 0x0E#8

/-- PUSH_IMM8_EXT (R10): OPEN, so a free value, one for the machine (log 6). -/
opaque pushImm8Ext : PushExt

/-- TRACE (R12): a free configuration bit (log 7). -/
opaque trace : Bool

/-- The byte the host supplies to the `n`-th read of the console port: a free value (R193, log 8). -/
opaque consoleByte : Nat → Byte

/-- The bytes that BIOS teletype output puts on the output stream for a character, the low three
colour bits and the brightness flag: the spec gives neither the colour table nor the escape format
(R195, 93_implementation_defined.md U24), so they are free (log 9). -/
opaque teletypeBytes : Byte → BitVec 3 → Bool → List Byte

end Config

end Sys2Proof
end

