-- ==== Sys2Proof/Syntax.lean ====
section
/-! DEFINITION. The instructions as syntax: one constructor per row of spec/opcode_table.json
(30_encoding.md R62). Immediates and displacements are kept as they are encoded; what widens them
is the meaning. -/

namespace Sys2Proof

/-- The eight general registers in index order (10_state.md R20). -/
inductive Reg32 where
  | eax | ecx | edx | ebx | esp | ebp | esi | edi
deriving DecidableEq, Repr

/-- The eight 8-bit register views in index order (10_state.md R22). -/
inductive Reg8 where
  | al | cl | dl | bl | ah | ch | dh | bh
deriving DecidableEq, Repr

/-- A memory operand of the ModRM resolver (30_encoding.md R64, R67). -/
inductive MemRef where
  /-- mod = 0, rm ≠ 4, 5: the address is the register. -/
  | base (b : Reg32)
  /-- mod = 0, rm = 5: the address is the displacement itself. -/
  | abs (disp : Word)
  /-- mod = 1, rm ≠ 4: register plus sign-extended 8-bit displacement. -/
  | disp8 (b : Reg32) (disp : Byte)
  /-- mod = 2, rm ≠ 4: register plus 32-bit displacement. -/
  | disp32 (b : Reg32) (disp : Word)
deriving DecidableEq, Repr

/-- A 32-bit r/m operand: register-direct (mod = 3) or memory (30_encoding.md R64). -/
inductive Rm32 where
  | reg (r : Reg32)
  | mem (m : MemRef)
deriving DecidableEq, Repr

/-- An 8-bit r/m operand: an 8-bit view (mod = 3) or one byte of memory (30_encoding.md R64). -/
inductive Rm8 where
  | reg (r : Reg8)
  | mem (m : MemRef)
deriving DecidableEq, Repr

/-- The 38 instruction forms (30_encoding.md R62). -/
inductive Instr where
  /-- MOV r8, imm8 (R100) -/
  | movR8Imm (dst : Reg8) (imm : Byte)
  /-- MOV r32, imm32 (R101) -/
  | movR32Imm (dst : Reg32) (imm : Word)
  /-- MOV r/m32, imm32 (R102) -/
  | movRm32Imm (dst : Rm32) (imm : Word)
  /-- MOV r8, r/m8 (R103) -/
  | movR8Rm8 (dst : Reg8) (src : Rm8)
  /-- MOV r32, r/m32 (R104) -/
  | movR32Rm32 (dst : Reg32) (src : Rm32)
  /-- MOV r/m8, r8 (R105) -/
  | movRm8R8 (dst : Rm8) (src : Reg8)
  /-- MOV r/m32, r32 (R106) -/
  | movRm32R32 (dst : Rm32) (src : Reg32)
  /-- ADD r/m32, r32 (R111) -/
  | addRm32R32 (dst : Rm32) (src : Reg32)
  /-- ADD r/m32, simm8 (R112) -/
  | addRm32Imm8 (dst : Rm32) (imm : Byte)
  /-- SUB r/m32, simm8 (R113) -/
  | subRm32Imm8 (dst : Rm32) (imm : Byte)
  /-- CMP r/m32, simm8 (R114) -/
  | cmpRm32Imm8 (lhs : Rm32) (imm : Byte)
  /-- CMP r32, r/m32 (R115) -/
  | cmpR32Rm32 (lhs : Reg32) (rhs : Rm32)
  /-- CMP AL, imm8 (R116) -/
  | cmpAlImm8 (imm : Byte)
  /-- CMP EAX, imm32 (R117) -/
  | cmpEaxImm32 (imm : Word)
  /-- INC r32 (R118) -/
  | incR32 (dst : Reg32)
  /-- INC r/m32 (R119) -/
  | incRm32 (dst : Rm32)
  /-- PUSH r32 (R132) -/
  | pushR32 (src : Reg32)
  /-- PUSH imm8 (R133) -/
  | pushImm8 (imm : Byte)
  /-- PUSH imm32 (R134) -/
  | pushImm32 (imm : Word)
  /-- POP r32 (R135) -/
  | popR32 (dst : Reg32)
  /-- JMP rel8 (R140) -/
  | jmpRel8 (rel : Byte)
  /-- JMP rel32 (R141) -/
  | jmpRel32 (rel : Word)
  /-- JO rel8 (R143) -/
  | jo (rel : Byte)
  /-- JNO rel8 (R144) -/
  | jno (rel : Byte)
  /-- JC rel8 (R145) -/
  | jc (rel : Byte)
  /-- JNC rel8 (R146) -/
  | jnc (rel : Byte)
  /-- JZ rel8 (R147) -/
  | jz (rel : Byte)
  /-- JNZ rel8 (R148) -/
  | jnz (rel : Byte)
  /-- JS rel8 (R149) -/
  | js (rel : Byte)
  /-- JNS rel8 (R150) -/
  | jns (rel : Byte)
  /-- JL rel8 (R151) -/
  | jl (rel : Byte)
  /-- JLE rel8 (R152) -/
  | jle (rel : Byte)
  /-- CALL rel32 (R153) -/
  | callRel32 (rel : Word)
  /-- RET (R154) -/
  | ret
  /-- LEAVE (R155) -/
  | leave
  /-- IN AL, DX (R170) -/
  | inAlDx
  /-- OUT DX, AL (R171) -/
  | outDxAl
  /-- INT imm8 (R172) -/
  | intImm8 (vec : Byte)
deriving DecidableEq, Repr

end Sys2Proof
end

