-- ==== Sys2Proof/WellFormed.lean ====
section
/-! DEFINITION. Which instruction terms an encoding stands for: a base register of ESP would need a
SIB byte (30_encoding.md R65), and EBP without a displacement is the absolute form (R67). -/

namespace Sys2Proof

/-- The memory operand is one the ModRM byte can select (30_encoding.md R64 to R67). -/
def MemRef.wf : MemRef → Bool
  | .base b => b != .esp && b != .ebp
  | .abs _ => true
  | .disp8 b _ => b != .esp
  | .disp32 b _ => b != .esp

def Rm32.wf : Rm32 → Bool
  | .reg _ => true
  | .mem m => m.wf

def Rm8.wf : Rm8 → Bool
  | .reg _ => true
  | .mem m => m.wf

/-- The instruction has an encoding: its r/m operand, if it has one, is well formed. -/
def Instr.wf : Instr → Bool
  | .movRm32Imm d _ => d.wf
  | .movR8Rm8 _ x => x.wf
  | .movR32Rm32 _ x => x.wf
  | .movRm8R8 d _ => d.wf
  | .movRm32R32 d _ => d.wf
  | .addRm32R32 d _ => d.wf
  | .addRm32Imm8 d _ => d.wf
  | .subRm32Imm8 d _ => d.wf
  | .cmpRm32Imm8 d _ => d.wf
  | .cmpR32Rm32 _ x => x.wf
  | .incRm32 d => d.wf
  | .movR8Imm _ _ | .movR32Imm _ _ | .cmpAlImm8 _ | .cmpEaxImm32 _ | .incR32 _ => true
  | .pushR32 _ | .pushImm8 _ | .pushImm32 _ | .popR32 _ => true
  | .jmpRel8 _ | .jmpRel32 _ | .jo _ | .jno _ | .jc _ | .jnc _ | .jz _ | .jnz _ => true
  | .js _ | .jns _ | .jl _ | .jle _ | .callRel32 _ | .ret | .leave => true
  | .inAlDx | .outDxAl | .intImm8 _ => true

end Sys2Proof
end

