-- ==== Sys2Proof/Decode.lean ====
section
/-! DEFINITION. The dispatch table, the ModRM resolver's decoding half and the decoder, total on any
bytes (30_encoding.md R60 to R84); then the lengths of R83 and an encoder written from the same
tables. -/

namespace Sys2Proof

/-! ## Fields -/

/-- General register by index (10_state.md R20). -/
def Reg32.ofIndex (i : BitVec 3) : Reg32 :=
  match i.toNat with
  | 0 => .eax | 1 => .ecx | 2 => .edx | 3 => .ebx
  | 4 => .esp | 5 => .ebp | 6 => .esi | _ => .edi

/-- Index of a general register (10_state.md R20). -/
def Reg32.index : Reg32 → BitVec 3
  | .eax => 0#3 | .ecx => 1#3 | .edx => 2#3 | .ebx => 3#3
  | .esp => 4#3 | .ebp => 5#3 | .esi => 6#3 | .edi => 7#3

/-- 8-bit view by index (10_state.md R22). -/
def Reg8.ofIndex (i : BitVec 3) : Reg8 :=
  match i.toNat with
  | 0 => .al | 1 => .cl | 2 => .dl | 3 => .bl
  | 4 => .ah | 5 => .ch | 6 => .dh | _ => .bh

/-- Index of an 8-bit view (10_state.md R22). -/
def Reg8.index : Reg8 → BitVec 3
  | .al => 0#3 | .cl => 1#3 | .dl => 2#3 | .bl => 3#3
  | .ah => 4#3 | .ch => 5#3 | .dh => 6#3 | .bh => 7#3

/-- ModRM bits 7:6 (R63). -/
def modField (b : Byte) : BitVec 2 := b.extractLsb' 6 2

/-- ModRM bits 5:3 (R63). -/
def regField (b : Byte) : BitVec 3 := b.extractLsb' 3 3

/-- ModRM bits 2:0 (R63), and the register of a +r opcode (R69). -/
def rmField (b : Byte) : BitVec 3 := b.extractLsb' 0 3

/-- The little-endian 32-bit value of four bytes in address order (20_memory.md R42, R47). -/
def le32 (b0 b1 b2 b3 : Byte) : Word := b3 ++ b2 ++ b1 ++ b0

/-- Byte `i` of a 32-bit value, bits `8i+7 : 8i` (20_memory.md R43). -/
def byteOf (w : Word) (i : Nat) : Byte := w.extractLsb' (8 * i) 8

/-- The four bytes of a 32-bit value in address order (20_memory.md R43). -/
def leBytes (w : Word) : List Byte := [byteOf w 0, byteOf w 1, byteOf w 2, byteOf w 3]

/-- `sext_32` (00_scope.md R15). -/
def sext32 (v : Byte) : Word := v.signExtend 32

/-- `zext_32` (00_scope.md R15). -/
def zext32 (v : Byte) : Word := v.zeroExtend 32

/-! ## The dispatch table -/

/-- The entries of the dispatch table: a handler for each non-group form and one for each of 0x83,
0xFF and 0xC7, whose ModRM reg field is looked at afterwards (30_encoding.md R72 to R74). -/
inductive Handler where
  | addRm32R32 | cmpR32Rm32 | cmpAlImm8 | cmpEaxImm32 | incR32 | pushR32 | popR32 | pushImm32
  | pushImm8 | jo | jno | jc | jnc | jz | jnz | js | jns | jl | jle | group83
  | movRm8R8 | movRm32R32 | movR8Rm8 | movR32Rm32 | movR8Imm | movR32Imm | ret | movRm32Imm
  | leave | intImm8 | callRel32 | jmpRel32 | jmpRel8 | inAlDx | outDxAl | groupFF
deriving DecidableEq, Repr

/-- One row of the opcode map: an opcode byte `op` is the row's when `op AND mask = pattern`. -/
structure OpRow where
  pattern : Byte
  mask : Byte
  handler : Handler
deriving DecidableEq, Repr

/-- The opcode map of 30_encoding.md R62 and R72, in opcode order. -/
def opRows : List OpRow :=
  [ ⟨0x01#8, 0xFF#8, .addRm32R32⟩, ⟨0x3B#8, 0xFF#8, .cmpR32Rm32⟩, ⟨0x3C#8, 0xFF#8, .cmpAlImm8⟩,
    ⟨0x3D#8, 0xFF#8, .cmpEaxImm32⟩, ⟨0x40#8, 0xF8#8, .incR32⟩, ⟨0x50#8, 0xF8#8, .pushR32⟩,
    ⟨0x58#8, 0xF8#8, .popR32⟩, ⟨0x68#8, 0xFF#8, .pushImm32⟩, ⟨0x6A#8, 0xFF#8, .pushImm8⟩ ] ++
  [ ⟨0x70#8, 0xFF#8, .jo⟩, ⟨0x71#8, 0xFF#8, .jno⟩, ⟨0x72#8, 0xFF#8, .jc⟩, ⟨0x73#8, 0xFF#8, .jnc⟩,
    ⟨0x74#8, 0xFF#8, .jz⟩, ⟨0x75#8, 0xFF#8, .jnz⟩, ⟨0x78#8, 0xFF#8, .js⟩, ⟨0x79#8, 0xFF#8, .jns⟩,
    ⟨0x7C#8, 0xFF#8, .jl⟩, ⟨0x7E#8, 0xFF#8, .jle⟩ ] ++
  [ ⟨0x83#8, 0xFF#8, .group83⟩, ⟨0x88#8, 0xFF#8, .movRm8R8⟩, ⟨0x89#8, 0xFF#8, .movRm32R32⟩,
    ⟨0x8A#8, 0xFF#8, .movR8Rm8⟩, ⟨0x8B#8, 0xFF#8, .movR32Rm32⟩, ⟨0xB0#8, 0xF8#8, .movR8Imm⟩,
    ⟨0xB8#8, 0xF8#8, .movR32Imm⟩ ] ++
  [ ⟨0xC3#8, 0xFF#8, .ret⟩, ⟨0xC7#8, 0xFF#8, .movRm32Imm⟩, ⟨0xC9#8, 0xFF#8, .leave⟩,
    ⟨0xCD#8, 0xFF#8, .intImm8⟩, ⟨0xE8#8, 0xFF#8, .callRel32⟩, ⟨0xE9#8, 0xFF#8, .jmpRel32⟩,
    ⟨0xEB#8, 0xFF#8, .jmpRel8⟩, ⟨0xEC#8, 0xFF#8, .inAlDx⟩, ⟨0xEE#8, 0xFF#8, .outDxAl⟩,
    ⟨0xFF#8, 0xFF#8, .groupFF⟩ ]

/-- The dispatch table (30_encoding.md R72): `none` is the "unimplemented" sentinel. -/
def handlerOf (op : Byte) : Option Handler :=
  (opRows.find? fun r => op &&& r.mask == r.pattern).map OpRow.handler

/-! ## Decoding -/

/-- Why bytes are no instruction: the three named rejections of the decoder. -/
inductive Reject where
  /-- The dispatch entry is the sentinel (30_encoding.md R75). -/
  | unimplementedOpcode (op : Byte)
  /-- SIB byte, unrecognised group reg, or C7 with reg ≠ 0 (R65, R73, R74). -/
  | unimplementedForm (op : Byte) (mod : BitVec 2) (reg rm : BitVec 3)
  /-- The bytes end before the `n` bytes at `offset` from the opcode that are read next (R45). -/
  | truncated (offset n : Nat)
deriving DecidableEq, Repr

/-- Read one code byte at `off` and go on with it and the bytes after it (20_memory.md R45). -/
def code8 {α : Type} (off : Nat) (bs : List Byte) (k : Byte → List Byte → Except Reject α) :
    Except Reject α :=
  match bs with
  | b :: rest => k b rest
  | [] => .error (.truncated off 1)

/-- Read four code bytes at `off`, little-endian, and go on (20_memory.md R45). -/
def code32 {α : Type} (off : Nat) (bs : List Byte) (k : Word → List Byte → Except Reject α) :
    Except Reject α :=
  match bs with
  | b0 :: b1 :: b2 :: b3 :: rest => k (le32 b0 b1 b2 b3) rest
  | _ => .error (.truncated off 4)

/-- The ModRM descriptor (10_state.md R36): the three fields, and the memory operand they and the
displacement name, or `none` when mod = 3. -/
structure ModRM where
  mod : BitVec 2
  reg : BitVec 3
  rm : BitVec 3
  mem : Option MemRef
deriving DecidableEq, Repr

/-- The 32-bit r/m operand (30_encoding.md R68). -/
def ModRM.rm32 (d : ModRM) : Rm32 :=
  match d.mem with
  | none => .reg (Reg32.ofIndex d.rm)
  | some m => .mem m

/-- The 8-bit r/m operand (30_encoding.md R68). -/
def ModRM.rm8 (d : ModRM) : Rm8 :=
  match d.mem with
  | none => .reg (Reg8.ofIndex d.rm)
  | some m => .mem m

/-- The 32-bit reg operand (30_encoding.md R68). -/
def ModRM.reg32 (d : ModRM) : Reg32 := Reg32.ofIndex d.reg

/-- The 8-bit reg operand (30_encoding.md R68). -/
def ModRM.reg8 (d : ModRM) : Reg8 := Reg8.ofIndex d.reg

/-- DecodeModRM at offset 1 (30_encoding.md R65): hands on the descriptor, the offset of the next
byte and the bytes from there. The SIB byte is consumed before its form is refused. -/
def decodeModRM {α : Type} (op : Byte) (bs : List Byte)
    (k : ModRM → Nat → List Byte → Except Reject α) : Except Reject α :=
  code8 1 bs fun b bs =>
    let mod := modField b
    let reg := regField b
    let rm := rmField b
    if mod = 3#2 then k ⟨mod, reg, rm, none⟩ 2 bs
    else if rm = 4#3 then code8 2 bs fun _ _ => .error (.unimplementedForm op mod reg rm)
    else if mod = 0#2 then
      if rm = 5#3 then code32 2 bs fun d bs => k ⟨mod, reg, rm, some (.abs d)⟩ 6 bs
      else k ⟨mod, reg, rm, some (.base (Reg32.ofIndex rm))⟩ 2 bs
    else if mod = 1#2 then
      code8 2 bs fun d bs => k ⟨mod, reg, rm, some (.disp8 (Reg32.ofIndex rm) d)⟩ 3 bs
    else code32 2 bs fun d bs => k ⟨mod, reg, rm, some (.disp32 (Reg32.ofIndex rm) d)⟩ 6 bs

/-- Group 0x83: the reg field selects ADD, SUB or CMP (30_encoding.md R73). -/
def decodeGroup83 (op : Byte) (d : ModRM) (q : Nat) (bs : List Byte) :
    Except Reject (Instr × List Byte) :=
  if d.reg = 0#3 then code8 q bs fun v bs => .ok (.addRm32Imm8 d.rm32 v, bs)
  else if d.reg = 5#3 then code8 q bs fun v bs => .ok (.subRm32Imm8 d.rm32 v, bs)
  else if d.reg = 7#3 then code8 q bs fun v bs => .ok (.cmpRm32Imm8 d.rm32 v, bs)
  else .error (.unimplementedForm op d.mod d.reg d.rm)

/-- Group 0xFF: only reg = 0 is INC (30_encoding.md R73). -/
def decodeGroupFF (op : Byte) (d : ModRM) (bs : List Byte) : Except Reject (Instr × List Byte) :=
  if d.reg = 0#3 then .ok (.incRm32 d.rm32, bs)
  else .error (.unimplementedForm op d.mod d.reg d.rm)

/-- 0xC7: only reg = 0 is MOV, looked at before the immediate is read (30_encoding.md R74). -/
def decodeC7 (op : Byte) (d : ModRM) (q : Nat) (bs : List Byte) :
    Except Reject (Instr × List Byte) :=
  if d.reg = 0#3 then code32 q bs fun v bs => .ok (.movRm32Imm d.rm32 v, bs)
  else .error (.unimplementedForm op d.mod d.reg d.rm)

/-- The bytes after opcode `op`, whose handler is `h`, as an instruction (30_encoding.md R60, R71). -/
def decodeHandler (h : Handler) (op : Byte) (bs : List Byte) : Except Reject (Instr × List Byte) :=
  match h with
  | .addRm32R32 => decodeModRM op bs fun d _ bs => .ok (.addRm32R32 d.rm32 d.reg32, bs)
  | .cmpR32Rm32 => decodeModRM op bs fun d _ bs => .ok (.cmpR32Rm32 d.reg32 d.rm32, bs)
  | .cmpAlImm8 => code8 1 bs fun v bs => .ok (.cmpAlImm8 v, bs)
  | .cmpEaxImm32 => code32 1 bs fun v bs => .ok (.cmpEaxImm32 v, bs)
  | .incR32 => .ok (.incR32 (Reg32.ofIndex (rmField op)), bs)
  | .pushR32 => .ok (.pushR32 (Reg32.ofIndex (rmField op)), bs)
  | .popR32 => .ok (.popR32 (Reg32.ofIndex (rmField op)), bs)
  | .pushImm32 => code32 1 bs fun v bs => .ok (.pushImm32 v, bs)
  | .pushImm8 => code8 1 bs fun v bs => .ok (.pushImm8 v, bs)
  | .jo => code8 1 bs fun v bs => .ok (.jo v, bs)
  | .jno => code8 1 bs fun v bs => .ok (.jno v, bs)
  | .jc => code8 1 bs fun v bs => .ok (.jc v, bs)
  | .jnc => code8 1 bs fun v bs => .ok (.jnc v, bs)
  | .jz => code8 1 bs fun v bs => .ok (.jz v, bs)
  | .jnz => code8 1 bs fun v bs => .ok (.jnz v, bs)
  | .js => code8 1 bs fun v bs => .ok (.js v, bs)
  | .jns => code8 1 bs fun v bs => .ok (.jns v, bs)
  | .jl => code8 1 bs fun v bs => .ok (.jl v, bs)
  | .jle => code8 1 bs fun v bs => .ok (.jle v, bs)
  | .group83 => decodeModRM op bs fun d q bs => decodeGroup83 op d q bs
  | .movRm8R8 => decodeModRM op bs fun d _ bs => .ok (.movRm8R8 d.rm8 d.reg8, bs)
  | .movRm32R32 => decodeModRM op bs fun d _ bs => .ok (.movRm32R32 d.rm32 d.reg32, bs)
  | .movR8Rm8 => decodeModRM op bs fun d _ bs => .ok (.movR8Rm8 d.reg8 d.rm8, bs)
  | .movR32Rm32 => decodeModRM op bs fun d _ bs => .ok (.movR32Rm32 d.reg32 d.rm32, bs)
  | .movR8Imm => code8 1 bs fun v bs => .ok (.movR8Imm (Reg8.ofIndex (rmField op)) v, bs)
  | .movR32Imm => code32 1 bs fun v bs => .ok (.movR32Imm (Reg32.ofIndex (rmField op)) v, bs)
  | .ret => .ok (.ret, bs)
  | .movRm32Imm => decodeModRM op bs fun d q bs => decodeC7 op d q bs
  | .leave => .ok (.leave, bs)
  | .intImm8 => code8 1 bs fun v bs => .ok (.intImm8 v, bs)
  | .callRel32 => code32 1 bs fun v bs => .ok (.callRel32 v, bs)
  | .jmpRel32 => code32 1 bs fun v bs => .ok (.jmpRel32 v, bs)
  | .jmpRel8 => code8 1 bs fun v bs => .ok (.jmpRel8 v, bs)
  | .inAlDx => .ok (.inAlDx, bs)
  | .outDxAl => .ok (.outDxAl, bs)
  | .groupFF => decodeModRM op bs fun d _ bs => decodeGroupFF op d bs

/-- The instruction at the front of `bs` and the bytes after it, or why there is none
(30_encoding.md R84). -/
def decode (bs : List Byte) : Except Reject (Instr × List Byte) :=
  code8 0 bs fun op bs =>
    match handlerOf op with
    | none => .error (.unimplementedOpcode op)
    | some h => decodeHandler h op bs

/-! ## Lengths -/

/-- `dl` of 30_encoding.md R83: the displacement's length. -/
def MemRef.dispLen : MemRef → Nat
  | .base _ => 0
  | .abs _ => 4
  | .disp8 _ _ => 1
  | .disp32 _ _ => 4

/-- `dl` of a 32-bit r/m operand (30_encoding.md R83). -/
def Rm32.dispLen : Rm32 → Nat
  | .reg _ => 0
  | .mem m => m.dispLen

/-- `dl` of an 8-bit r/m operand (30_encoding.md R83). -/
def Rm8.dispLen : Rm8 → Nat
  | .reg _ => 0
  | .mem m => m.dispLen

/-- The instruction's length in bytes, the table of 30_encoding.md R83. -/
def Instr.length : Instr → Nat
  | .incR32 _ | .pushR32 _ | .popR32 _ | .ret | .leave | .inAlDx | .outDxAl => 1
  | .cmpAlImm8 _ | .pushImm8 _ | .movR8Imm _ _ | .intImm8 _ | .jmpRel8 _ => 2
  | .jo _ | .jno _ | .jc _ | .jnc _ | .jz _ | .jnz _ | .js _ | .jns _ | .jl _ | .jle _ => 2
  | .addRm32R32 d _ => 2 + d.dispLen
  | .cmpR32Rm32 _ x => 2 + x.dispLen
  | .movRm8R8 d _ => 2 + d.dispLen
  | .movRm32R32 d _ => 2 + d.dispLen
  | .movR8Rm8 _ x => 2 + x.dispLen
  | .movR32Rm32 _ x => 2 + x.dispLen
  | .incRm32 d => 2 + d.dispLen
  | .addRm32Imm8 d _ => 3 + d.dispLen
  | .subRm32Imm8 d _ => 3 + d.dispLen
  | .cmpRm32Imm8 d _ => 3 + d.dispLen
  | .cmpEaxImm32 _ | .pushImm32 _ | .movR32Imm _ _ | .callRel32 _ | .jmpRel32 _ => 5
  | .movRm32Imm d _ => 6 + d.dispLen

/-! ## The encoder -/

/-- A ModRM byte from its fields (30_encoding.md R63). -/
def modRMByte (mod : BitVec 2) (reg rm : BitVec 3) : Byte := mod ++ reg ++ rm

/-- An opcode of a +r form (30_encoding.md R69). -/
def opPlusReg (base : Byte) (i : BitVec 3) : Byte := base ||| i.zeroExtend 8

/-- The ModRM byte and displacement of a memory operand (30_encoding.md R64, R66). -/
def MemRef.encode (reg : BitVec 3) : MemRef → List Byte
  | .base b => [modRMByte 0#2 reg b.index]
  | .abs d => modRMByte 0#2 reg 5#3 :: leBytes d
  | .disp8 b d => [modRMByte 1#2 reg b.index, d]
  | .disp32 b d => modRMByte 2#2 reg b.index :: leBytes d

/-- The ModRM byte and displacement of a 32-bit r/m operand. -/
def Rm32.encode (reg : BitVec 3) : Rm32 → List Byte
  | .reg r => [modRMByte 3#2 reg r.index]
  | .mem m => m.encode reg

/-- The ModRM byte and displacement of an 8-bit r/m operand. -/
def Rm8.encode (reg : BitVec 3) : Rm8 → List Byte
  | .reg r => [modRMByte 3#2 reg r.index]
  | .mem m => m.encode reg

/-- The bytes of an instruction (30_encoding.md R60, R62, R71). -/
def encode : Instr → List Byte
  | .movR8Imm d v => [opPlusReg 0xB0#8 d.index, v]
  | .movR32Imm d v => opPlusReg 0xB8#8 d.index :: leBytes v
  | .movRm32Imm d v => 0xC7#8 :: (d.encode 0#3 ++ leBytes v)
  | .movR8Rm8 d x => 0x8A#8 :: x.encode d.index
  | .movR32Rm32 d x => 0x8B#8 :: x.encode d.index
  | .movRm8R8 d x => 0x88#8 :: d.encode x.index
  | .movRm32R32 d x => 0x89#8 :: d.encode x.index
  | .addRm32R32 d x => 0x01#8 :: d.encode x.index
  | .addRm32Imm8 d v => 0x83#8 :: (d.encode 0#3 ++ [v])
  | .subRm32Imm8 d v => 0x83#8 :: (d.encode 5#3 ++ [v])
  | .cmpRm32Imm8 d v => 0x83#8 :: (d.encode 7#3 ++ [v])
  | .cmpR32Rm32 l x => 0x3B#8 :: x.encode l.index
  | .cmpAlImm8 v => [0x3C#8, v]
  | .cmpEaxImm32 v => 0x3D#8 :: leBytes v
  | .incR32 d => [opPlusReg 0x40#8 d.index]
  | .incRm32 d => 0xFF#8 :: d.encode 0#3
  | .pushR32 x => [opPlusReg 0x50#8 x.index]
  | .pushImm8 v => [0x6A#8, v]
  | .pushImm32 v => 0x68#8 :: leBytes v
  | .popR32 d => [opPlusReg 0x58#8 d.index]
  | .jmpRel8 d => [0xEB#8, d]
  | .jmpRel32 d => 0xE9#8 :: leBytes d
  | .jo d => [0x70#8, d]
  | .jno d => [0x71#8, d]
  | .jc d => [0x72#8, d]
  | .jnc d => [0x73#8, d]
  | .jz d => [0x74#8, d]
  | .jnz d => [0x75#8, d]
  | .js d => [0x78#8, d]
  | .jns d => [0x79#8, d]
  | .jl d => [0x7C#8, d]
  | .jle d => [0x7E#8, d]
  | .callRel32 d => 0xE8#8 :: leBytes d
  | .ret => [0xC3#8]
  | .leave => [0xC9#8]
  | .inAlDx => [0xEC#8]
  | .outDxAl => [0xEE#8]
  | .intImm8 v => [0xCD#8, v]

/-! ## The opcode table's words -/

/-- The `n` bytes of `w` from its least significant byte on. -/
def bytesOfNat : Nat → Nat → List Byte
  | 0, _ => []
  | n + 1, w => BitVec.ofNat 8 w :: bytesOfNat n (w / 256)

/-- The longest instruction's bytes as a table word gives them: byte `k` is bits `8k+7 : 8k` of `w`,
and every bit from `nbits` on is 0. -/
def tableBytes (nbits w : Nat) : List Byte := bytesOfNat Config.maxInstrLen (w % 2 ^ nbits)

/-- The instruction the decoder reads from a word of spec/opcode_table.json. -/
def decodeTableWord (nbits w : Nat) : Option Instr :=
  match decode (tableBytes nbits w) with
  | .ok (i, _) => some i
  | .error _ => none

end Sys2Proof
end

