-- ==== Sys2Proof/Machine/State.lean ====
section
/-! DEFINITION. The machine's state as plain data (10_state.md R33), the reasons a step can stop
(60_exceptions.md R181), and the state after reset (10_state.md R38). -/

namespace Sys2Proof.Machine

/-- The eight 32-bit general registers (10_state.md R20). -/
structure Regs where
  eax : Word
  ecx : Word
  edx : Word
  ebx : Word
  esp : Word
  ebp : Word
  esi : Word
  edi : Word
deriving DecidableEq, Repr

/-- The four flags (10_state.md R27). -/
structure Flags where
  cf : Bool
  zf : Bool
  sf : Bool
  of : Bool
deriving DecidableEq, Repr

/-- Memory: the listed (address, byte) pairs, addresses strictly rising, no byte equal to
`Config.unlistedByte`, which is what an unlisted address reads as (20_memory.md R40; log 5). -/
abbrev Memory := List Host.Cell

/-- What kind of access an address was used for (20_memory.md R44). -/
inductive AccessKind where
  | fetch
  | read
  | write
deriving DecidableEq, Repr

/-- The parameter of Halted-Unimplemented (10_state.md R34, 90_conflicts.md C7). -/
inductive Unimplemented where
  | opcode (op : Byte)
  | addressingForm (op : Byte) (mod : BitVec 2) (reg rm : BitVec 3)
deriving DecidableEq, Repr

/-- The run state (10_state.md R34). A step reaches the last value, and `haltedUnimplemented` of an
addressing form, only as a fault: the state beside them is unspecified (60_exceptions.md R183, R184;
log 11). -/
inductive RunState where
  | running
  | haltedNormal
  | haltedUnimplemented (f : Unimplemented)
  | haltedOutOfRange
  | faultedOutOfBounds (addr : Word) (n : Nat) (kind : AccessKind)
deriving DecidableEq, Repr

/-- One call of a host collaborator (60_exceptions.md R192): an observation of the run, not CORE
state (R194, R197; log 9). -/
inductive HostEvent where
  /-- A trace line: opcode byte and instruction pointer (R197). -/
  | trace (op : Byte) (ip : Word)
  /-- PortRead(p), and the byte it answered (R193). -/
  | portRead (p : Port) (v : Byte)
  /-- PortWrite(p, v) (R194). -/
  | portWrite (p : Port) (v : Byte)
  /-- BiosVideo(ah, al, color) (R195). -/
  | biosVideo (ah al : Byte) (color : BitVec 4)
  /-- The report "unknown interrupt" with its vector (44_io_interrupt.md R174). -/
  | unknownInterrupt (vec : Byte)
deriving DecidableEq, Repr

/-- The machine: the tuple of 10_state.md R33, and two fields of the model's own. -/
structure State where
  regs : Regs
  eip : Word
  flags : Flags
  mem : Memory
  run : RunState
  /-- The model's own: the collaborator calls so far, oldest first (log 9). No step reads it. -/
  hostLog : List HostEvent
  /-- The model's own: how many bytes the console port has supplied, the argument of the free value
  `Config.consoleByte` (log 10). -/
  consoleReads : Nat
deriving DecidableEq, Repr

/-- Why a step answers no next state. -/
inductive Fault where
  /-- UnimplementedAddressingForm, code 2 (60_exceptions.md R183): raised by a step whose bytes need
  a SIB byte, or hold a group or C7 reg field that names no form. Safe: the state after it is
  unspecified, and there is none. -/
  | unimplementedAddressingForm (op : Byte) (mod : BitVec 2) (reg rm : BitVec 3)
  /-- OutOfBounds, code 3 (60_exceptions.md R184): raised by a fetch, read or write that does not lie
  wholly below MEM_SIZE. Safe: the state after it is unspecified, and there is none. -/
  | outOfBounds (addr : Word) (n : Nat) (kind : AccessKind)
  /-- No fault of the CORE: the answer of a step from a run state other than Running, from which "no
  step is taken" (10_state.md R34; log 12). Safe: the ended state is the one before. -/
  | runEnded (run : RunState)
deriving DecidableEq, Repr

/-- Why an instruction has no meaning in the model. -/
inductive Refusal where
  /-- Raised by an arm of `exec` whose instruction is not modelled; no arm is. Safe. -/
  | notModelled (mnemonic : String)
deriving DecidableEq, Repr

/-- What `exec` and `step` answer. -/
abbrev Result := Host.Outcome State Fault Refusal

/-- The machine at the start of a run (10_state.md R38, 70_reset_and_hazards.md R210) with no image
loaded and every launch parameter at the value that log 1 to 5 name. The spec states Running; the
other values are DESIGN CHOICE, since the spec leaves them open. -/
def State.reset : State where
  regs := ⟨Config.initGpr, Config.initGpr, Config.initGpr, Config.initGpr,
           Config.initEsp, Config.initGpr, Config.initGpr, Config.initGpr⟩
  eip := Config.loadAddr
  flags := ⟨Config.initFlag, Config.initFlag, Config.initFlag, Config.initFlag⟩
  mem := []
  run := .running
  hostLog := []
  consoleReads := 0

end Sys2Proof.Machine
end

