-- ==== Sys2Proof/Machine/Ops.lean ====
section
/-! DEFINITION. The named operations over memory, registers and the stack (20_memory.md,
10_state.md, 42_stack.md), fetching, and how a run ends or faults (60_exceptions.md). -/

namespace Sys2Proof.Machine

/-! ## Memory -/

/-- M[a] (20_memory.md R40). -/
def Memory.read : Memory → Nat → Byte
  | [], _ => Config.unlistedByte
  | (k, b) :: rest, a => if a = k then b else Memory.read rest a

/-- M[a] <- v (20_memory.md R43), in canonical form: writing what an unlisted address reads as
removes the entry. -/
def Memory.write : Memory → Nat → Byte → Memory
  | [], a, v => if v = Config.unlistedByte then [] else [(a, v)]
  | (k, b) :: rest, a, v =>
    if v = Config.unlistedByte then
      if a = k then Memory.write rest a v else (k, b) :: Memory.write rest a v
    else if a < k then (a, v) :: (k, b) :: rest
    else if a = k then (a, v) :: rest
    else (k, b) :: Memory.write rest a v

/-- The canonical form: addresses strictly rising, all backed by memory, none listed with the byte
an unlisted address reads as. -/
abbrev Memory.wf (m : Memory) : Prop :=
  m.Pairwise (fun c d => c.1 < d.1) ∧ ∀ c ∈ m, c.2 ≠ Config.unlistedByte ∧ c.1 < Config.memSize

/-- The `n` bytes from address `a` on. -/
def Memory.bytes (m : Memory) : Nat → Nat → List Byte
  | _, 0 => []
  | a, n + 1 => Memory.read m a :: Memory.bytes m (a + 1) n

/-- The bytes placed from address `a` on (60_exceptions.md R196); what would lie at or beyond
MEM_SIZE is dropped. -/
def Memory.place (m : Memory) : Nat → List Byte → Memory
  | _, [] => m
  | a, b :: bs =>
    if a < Config.memSize then Memory.place (Memory.write m a b) (a + 1) bs else m

/-- The little-endian 32-bit value at `a` (20_memory.md R42). -/
def Memory.read32 (m : Memory) (a : Nat) : Word :=
  le32 (Memory.read m a) (Memory.read m (a + 1)) (Memory.read m (a + 2)) (Memory.read m (a + 3))

/-- The four bytes of `v`, lowest first, at `a` to `a + 3` (20_memory.md R43). -/
def Memory.write32 (m : Memory) (a : Nat) (v : Word) : Memory :=
  let m := Memory.write m a (byteOf v 0)
  let m := Memory.write m (a + 1) (byteOf v 1)
  let m := Memory.write m (a + 2) (byteOf v 2)
  Memory.write m (a + 3) (byteOf v 3)

/-- CheckBounds (20_memory.md R44): unbounded integers, no wrap inside an access. -/
def checkBounds (a : Word) (n : Nat) (kind : AccessKind) : Except Fault Unit :=
  if a.toNat + n > Config.memSize then .error (.outOfBounds a n kind) else .ok ()

/-- MemRead(a, 1) (20_memory.md R42). -/
def State.memRead8 (s : State) (a : Word) : Except Fault Byte := do
  checkBounds a 1 .read
  return Memory.read s.mem a.toNat

/-- MemRead(a, 4) (20_memory.md R42). -/
def State.memRead32 (s : State) (a : Word) : Except Fault Word := do
  checkBounds a 4 .read
  return Memory.read32 s.mem a.toNat

/-- MemWrite(a, 1, v) (20_memory.md R43). -/
def State.memWrite8 (s : State) (a : Word) (v : Byte) : Except Fault State := do
  checkBounds a 1 .write
  return { s with mem := Memory.write s.mem a.toNat v }

/-- MemWrite(a, 4, v) (20_memory.md R43). -/
def State.memWrite32 (s : State) (a : Word) (v : Word) : Except Fault State := do
  checkBounds a 4 .write
  return { s with mem := Memory.write32 s.mem a.toNat v }

/-! ## Registers -/

/-- x[r] (10_state.md R20). -/
def Regs.get (g : Regs) : Reg32 → Word
  | .eax => g.eax | .ecx => g.ecx | .edx => g.edx | .ebx => g.ebx
  | .esp => g.esp | .ebp => g.ebp | .esi => g.esi | .edi => g.edi

/-- x[r] <- v (10_state.md R23). -/
def Regs.set (g : Regs) (r : Reg32) (v : Word) : Regs :=
  match r with
  | .eax => { g with eax := v } | .ecx => { g with ecx := v }
  | .edx => { g with edx := v } | .ebx => { g with ebx := v }
  | .esp => { g with esp := v } | .ebp => { g with ebp := v }
  | .esi => { g with esi := v } | .edi => { g with edi := v }

/-- The 32-bit register an 8-bit view lies in (10_state.md R22). -/
def viewReg : Reg8 → Reg32
  | .al | .ah => .eax
  | .cl | .ch => .ecx
  | .dl | .dh => .edx
  | .bl | .bh => .ebx

/-- Whether an 8-bit view is bits 15:8, not bits 7:0 (10_state.md R22). -/
def viewHigh : Reg8 → Bool
  | .al | .cl | .dl | .bl => false
  | .ah | .ch | .dh | .bh => true

/-- r8(i) (10_state.md R22). -/
def Regs.get8 (g : Regs) (i : Reg8) : Byte :=
  if viewHigh i then (g.get (viewReg i)).extractLsb' 8 8 else (g.get (viewReg i)).extractLsb' 0 8

/-- `w` with its bits 15:8 or 7:0 replaced and the other 24 kept (10_state.md R23). -/
def insertView (w : Word) (high : Bool) (v : Byte) : Word :=
  if high then w.extractLsb' 16 16 ++ v ++ w.extractLsb' 0 8 else w.extractLsb' 8 24 ++ v

/-- r8(i) <- v (10_state.md R23). -/
def Regs.set8 (g : Regs) (i : Reg8) (v : Byte) : Regs :=
  g.set (viewReg i) (insertView (g.get (viewReg i)) (viewHigh i) v)

/-- x[r] of a state. -/
def State.reg (s : State) (r : Reg32) : Word := s.regs.get r

/-- x[r] <- v. -/
def State.setReg (s : State) (r : Reg32) (v : Word) : State := { s with regs := s.regs.set r v }

/-- r8(i) of a state. -/
def State.reg8 (s : State) (i : Reg8) : Byte := s.regs.get8 i

/-- r8(i) <- v. -/
def State.setReg8 (s : State) (i : Reg8) (v : Byte) : State := { s with regs := s.regs.set8 i v }

/-- All four flags at once, the only way they are written (10_state.md R28). -/
def State.setFlags (s : State) (f : Flags) : State := { s with flags := f }

/-- eip <- a, for a control transfer (10_state.md R25). -/
def State.jumpTo (s : State) (a : Word) : State := { s with eip := a }

/-- eip <- ip0 + n, for an instruction of `n` bytes (30_encoding.md R77). -/
def State.advance (s : State) (n : Nat) : State := { s with eip := s.eip + BitVec.ofNat 32 n }

/-! ## The stack -/

/-- Push(v) (42_stack.md R130): the bounds are checked before ESP moves. -/
def State.push (s : State) (v : Word) : Except Fault State := do
  checkBounds (s.reg .esp - 4#32) 4 .write
  let s := s.setReg .esp (s.reg .esp - 4#32)
  s.memWrite32 (s.reg .esp) v

/-- Pop() (42_stack.md R131): the value, and the state with ESP past it. -/
def State.pop (s : State) : Except Fault (Word × State) := do
  let v ← s.memRead32 (s.reg .esp)
  return (v, s.setReg .esp (s.reg .esp + 4#32))

/-! ## Faults and the end of a run -/

/-- `raise F` for the two faults after which the state is unspecified (60_exceptions.md R180, R183,
R184): there is no handler and nothing is saved (R188), so the step ends in the fault. -/
def raise (f : Fault) : Result := .fault f

/-- `raise UnimplementedOpcode(op)` (60_exceptions.md R182): only `run` changes. -/
def State.raiseOpcode (s : State) (op : Byte) : State :=
  { s with run := .haltedUnimplemented (.opcode op) }

/-- What an instruction's pseudocode comes to: its next state, or the fault it raised. -/
def finish : Except Fault State → Result
  | .ok s => .next s
  | .error f => raise f

/-- The halt at address zero, looked at after a handler returns (30_encoding.md R78). -/
def State.haltAtZero (s : State) : State :=
  if s.eip = 0#32 then { s with run := .haltedNormal } else s

/-- The end of a step whose handler has answered (30_encoding.md R76). -/
def afterHandler : Result → Result
  | .next s => .next s.haltAtZero
  | .fault f => .fault f
  | .refused r => .refused r

/-- The exit before a fetch at or beyond MEM_SIZE (30_encoding.md R79). -/
def State.exitOutOfRange (s : State) : State := { s with run := .haltedOutOfRange }

/-! ## Fetching -/

/-- The bytes the decoder is given: those from `eip` on, up to the longest instruction and no
further than memory goes (20_memory.md R45; log 15). -/
def State.codeBytes (s : State) : List Byte :=
  Memory.bytes s.mem s.eip.toNat (min Config.maxInstrLen (Config.memSize - s.eip.toNat))

/-- The trace line of the fetched opcode, emitted when TRACE is on (30_encoding.md R76,
60_exceptions.md R197). -/
def State.traceFetch (s : State) : State :=
  { s with
    hostLog :=
      if Config.trace then s.hostLog ++ [.trace (Memory.read s.mem s.eip.toNat) s.eip]
      else s.hostLog }

/-- What a step answers for bytes that are no instruction: the halt of an unregistered opcode
(60_exceptions.md R182), or the fault, whose address is `ip0 + offset` (20_memory.md R45). -/
def State.reject (s : State) : Reject → Result
  | .unimplementedOpcode op => .next (s.raiseOpcode op)
  | .unimplementedForm op mod reg rm => raise (.unimplementedAddressingForm op mod reg rm)
  | .truncated off n => raise (.outOfBounds (s.eip + BitVec.ofNat 32 off) n .fetch)

/-- A table word's bytes stored where the next instruction is fetched. -/
def State.storeCode (s : State) (bs : List Byte) : State :=
  { s with mem := Memory.place s.mem s.eip.toNat bs }

end Sys2Proof.Machine
end

