-- ==== Sys2Proof/Machine/Flags.lean ====
section
/-! DEFINITION. The one flags computation (41_arith_compare.md R110), the conditions that read the
flags (43_control.md R143 to R152), and the flags word (10_state.md R30). -/

namespace Sys2Proof.Machine

/-- SubFlags(l, r) (41_arith_compare.md R110): the exact difference, and what its narrowing to 32
bits loses. -/
def subFlags (l r : Word) : Flags :=
  let wide : Int := (l.toNat : Int) - (r.toNat : Int)
  let res : Word := BitVec.ofInt 32 wide
  { cf := decide (wide < 0)
    zf := res == 0#32
    sf := res.msb
    of := (l.msb != r.msb) && (l.msb != res.msb) }

/-- The signed-less condition (43_control.md R151). -/
def Flags.less (f : Flags) : Bool := f.sf != f.of

/-- The signed-less-or-equal condition (43_control.md R152). -/
def Flags.lessOrEqual (f : Flags) : Bool := f.zf || f.sf != f.of

/-- The flags word, CF in bit 0, ZF in bit 6, SF in bit 7, OF in bit 11, the rest 0 (10_state.md
R30). Only the dump shows it. -/
def Flags.word (f : Flags) : Word :=
  BitVec.ofNat 32 (f.cf.toNat * 2 ^ 0 + f.zf.toNat * 2 ^ 6 + f.sf.toNat * 2 ^ 7 + f.of.toNat * 2 ^ 11)

end Sys2Proof.Machine
end

