-- ==== Sys2Proof/Machine/Operands.lean ====
section
/-! DEFINITION. The r/m operand accessors (30_encoding.md R67, R68) and the widening of PUSH imm8
(42_stack.md R133). -/

namespace Sys2Proof.Machine

/-- EA(d) (30_encoding.md R67). Register-direct operands are another constructor, so its "mod = 3"
arm cannot be reached (R68). -/
def MemRef.ea (m : MemRef) (s : State) : Word :=
  match m with
  | .base b => s.reg b
  | .abs d => d
  | .disp8 b d => s.reg b + sext32 d
  | .disp32 b d => s.reg b + d

/-- RM32(d) (30_encoding.md R68). -/
def State.readRm32 (s : State) : Rm32 → Except Fault Word
  | .reg r => .ok (s.reg r)
  | .mem m => s.memRead32 (MemRef.ea m s)

/-- RM32(d) <- v (30_encoding.md R68). -/
def State.writeRm32 (s : State) (d : Rm32) (v : Word) : Except Fault State :=
  match d with
  | .reg r => .ok (s.setReg r v)
  | .mem m => s.memWrite32 (MemRef.ea m s) v

/-- RM8(d) (30_encoding.md R68). -/
def State.readRm8 (s : State) : Rm8 → Except Fault Byte
  | .reg r => .ok (s.reg8 r)
  | .mem m => s.memRead8 (MemRef.ea m s)

/-- RM8(d) <- v (30_encoding.md R68). -/
def State.writeRm8 (s : State) (d : Rm8) (v : Byte) : Except Fault State :=
  match d with
  | .reg r => .ok (s.setReg8 r v)
  | .mem m => s.memWrite8 (MemRef.ea m s) v

/-- The immediate of PUSH imm8 as PUSH_IMM8_EXT widens it (42_stack.md R133; log 6). -/
def widenPushImm8 (b : Byte) : Word :=
  match Config.pushImm8Ext with
  | .sign => sext32 b
  | .zero => zext32 b

end Sys2Proof.Machine
end

