-- ==== Sys2Proof/Machine/Arith.lean ====
section
/-! DEFINITION. The arithmetic and compare family (41_arith_compare.md). ADD and INC write no flags
(92_eei_decisions.md D7); the others write all four through `subFlags`. -/

namespace Sys2Proof.Machine

/-- ADD r/m32, r32 (R111). -/
def execAddRm32R32 (dst : Rm32) (src : Reg32) (s : State) : Result :=
  finish do
    let l ← s.readRm32 dst
    let t ← s.writeRm32 dst (l + s.reg src)
    return t.advance (2 + dst.dispLen)

/-- ADD r/m32, simm8 (R112). -/
def execAddRm32Imm8 (dst : Rm32) (imm : Byte) (s : State) : Result :=
  finish do
    let l ← s.readRm32 dst
    let t ← s.writeRm32 dst (l + sext32 imm)
    return t.advance (3 + dst.dispLen)

/-- SUB r/m32, simm8 (R113): the result is stored, then the flags are written. -/
def execSubRm32Imm8 (dst : Rm32) (imm : Byte) (s : State) : Result :=
  finish do
    let l ← s.readRm32 dst
    let t ← s.writeRm32 dst (l - sext32 imm)
    return (t.setFlags (subFlags l (sext32 imm))).advance (3 + dst.dispLen)

/-- CMP r/m32, simm8 (R114). -/
def execCmpRm32Imm8 (lhs : Rm32) (imm : Byte) (s : State) : Result :=
  finish do
    let l ← s.readRm32 lhs
    return (s.setFlags (subFlags l (sext32 imm))).advance (3 + lhs.dispLen)

/-- CMP r32, r/m32 (R115): register minus r/m. -/
def execCmpR32Rm32 (lhs : Reg32) (rhs : Rm32) (s : State) : Result :=
  finish do
    let r ← s.readRm32 rhs
    return (s.setFlags (subFlags (s.reg lhs) r)).advance (2 + rhs.dispLen)

/-- CMP AL, imm8 (R116): the flags of the two bytes zero-extended to 32 bits
(92_eei_decisions.md D9). -/
def execCmpAlImm8 (imm : Byte) (s : State) : Result :=
  finish (.ok ((s.setFlags (subFlags (zext32 (s.reg8 .al)) (zext32 imm))).advance 2))

/-- CMP EAX, imm32 (R117). -/
def execCmpEaxImm32 (imm : Word) (s : State) : Result :=
  finish (.ok ((s.setFlags (subFlags (s.reg .eax) imm)).advance 5))

/-- INC r32 (R118). -/
def execIncR32 (dst : Reg32) (s : State) : Result :=
  finish (.ok ((s.setReg dst (s.reg dst + 1#32)).advance 1))

/-- INC r/m32 (R119). -/
def execIncRm32 (dst : Rm32) (s : State) : Result :=
  finish do
    let l ← s.readRm32 dst
    let t ← s.writeRm32 dst (l + 1#32)
    return t.advance (2 + dst.dispLen)

end Sys2Proof.Machine
end

