-- ==== Sys2Proof/Machine/Control.lean ====
section
/-! DEFINITION. The control transfer family (43_control.md). No control transfer writes the flags,
and a target is not checked when it is written (R156). -/

namespace Sys2Proof.Machine

/-- The target of a relative transfer of `len` bytes: `ip0 + len + rel` (30_encoding.md R70). -/
def State.relTarget (s : State) (len : Nat) (rel : Word) : Word :=
  s.eip + BitVec.ofNat 32 len + rel

/-- JMP rel8 (R140). -/
def execJmpRel8 (rel : Byte) (s : State) : Result :=
  finish (.ok (s.jumpTo (s.relTarget 2 (sext32 rel))))

/-- JMP rel32 (R141). -/
def execJmpRel32 (rel : Word) (s : State) : Result :=
  finish (.ok (s.jumpTo (s.relTarget 5 rel)))

/-- Every conditional jump (R142): to the target if the condition holds, past the two bytes if it
does not. -/
def jumpIf (cond : Bool) (rel : Byte) (s : State) : Result :=
  finish (.ok (if cond then s.jumpTo (s.relTarget 2 (sext32 rel)) else s.advance 2))

/-- JO rel8 (R143). -/
def execJo (rel : Byte) (s : State) : Result := jumpIf s.flags.of rel s

/-- JNO rel8 (R144). -/
def execJno (rel : Byte) (s : State) : Result := jumpIf (!s.flags.of) rel s

/-- JC rel8 (R145). -/
def execJc (rel : Byte) (s : State) : Result := jumpIf s.flags.cf rel s

/-- JNC rel8 (R146). -/
def execJnc (rel : Byte) (s : State) : Result := jumpIf (!s.flags.cf) rel s

/-- JZ rel8 (R147). -/
def execJz (rel : Byte) (s : State) : Result := jumpIf s.flags.zf rel s

/-- JNZ rel8 (R148). -/
def execJnz (rel : Byte) (s : State) : Result := jumpIf (!s.flags.zf) rel s

/-- JS rel8 (R149). -/
def execJs (rel : Byte) (s : State) : Result := jumpIf s.flags.sf rel s

/-- JNS rel8 (R150). -/
def execJns (rel : Byte) (s : State) : Result := jumpIf (!s.flags.sf) rel s

/-- JL rel8 (R151). -/
def execJl (rel : Byte) (s : State) : Result := jumpIf s.flags.less rel s

/-- JLE rel8 (R152). -/
def execJle (rel : Byte) (s : State) : Result := jumpIf s.flags.lessOrEqual rel s

/-- CALL rel32 (R153): pushes the address of the next instruction. -/
def execCallRel32 (rel : Word) (s : State) : Result :=
  finish do
    let t ← s.push (s.eip + 5#32)
    return t.jumpTo (s.relTarget 5 rel)

/-- RET (R154). -/
def execRet (s : State) : Result :=
  finish do
    let (v, t) ← s.pop
    return t.jumpTo v

/-- LEAVE (R155): ESP <- EBP, then EBP is popped. -/
def execLeave (s : State) : Result :=
  finish do
    let (v, t) ← (s.setReg .esp (s.reg .ebp)).pop
    return (t.setReg .ebp v).advance 1

end Sys2Proof.Machine
end

