-- ==== Sys2Proof/Machine/Collaborators.lean ====
section
/-! DEFINITION. The contracts of the host collaborators (60_exceptions.md R192 to R198) as far as
the CORE sees them, and what their calls put on the host's outputs. -/

namespace Sys2Proof.Machine

/-- A collaborator call, appended in program order (20_memory.md R54). -/
def State.call (s : State) (e : HostEvent) : State := { s with hostLog := s.hostLog ++ [e] }

/-- PortRead(p) (60_exceptions.md R193): the console port answers the next byte the host supplies, a
free value (log 8); every other port answers 0. -/
def State.portRead (s : State) (p : Port) : Byte × State :=
  if p = Config.consolePort then
    let v := Config.consoleByte s.consoleReads
    (v, { s with
          consoleReads := s.consoleReads + 1
          hostLog := s.hostLog ++ [.portRead p v] })
  else (0#8, s.call (.portRead p 0#8))

/-- PortWrite(p, v) (60_exceptions.md R194). -/
def State.portWrite (s : State) (p : Port) (v : Byte) : State := s.call (.portWrite p v)

/-- The BIOS video call of INT 0x10, its three values taken from EAX and EBX (44_io_interrupt.md
R172, R173). -/
def State.biosVideo (s : State) : State :=
  s.call (.biosVideo (s.reg8 .ah) (s.reg8 .al) ((s.reg .ebx).extractLsb' 0 4))

/-- The report of a vector that is not 0x10 (44_io_interrupt.md R174). -/
def State.reportUnknown (s : State) (vec : Byte) : State := s.call (.unknownInterrupt vec)

/-- The bytes a call puts on the character output stream: a console port write its byte (R194), BIOS
teletype its styled character (R195), anything else none. -/
def outputOf : HostEvent → List Byte
  | .trace _ _ => []
  | .portRead _ _ => []
  | .portWrite p v => if p = Config.consolePort then [v] else []
  | .biosVideo ah al color =>
    if ah = Config.teletypeFunction then
      Config.teletypeBytes al (color.extractLsb' 0 3) (color.getLsbD 3)
    else []
  | .unknownInterrupt _ => []

/-- The character output stream of a run (60_exceptions.md R194): the calls' bytes in program
order. -/
def State.outputStream (s : State) : List Byte := s.hostLog.flatMap outputOf

/-- What the host reports on its diagnostic output (60_exceptions.md R185). -/
inductive Diagnostic where
  | unknownInterrupt (vec : Byte)
  | videoNotImplemented (ah : Byte)
deriving DecidableEq, Repr

/-- The report a call gives rise to: an unknown vector, or a BIOS video sub-function other than
teletype (60_exceptions.md R185, R195). -/
def diagnosticOf : HostEvent → Option Diagnostic
  | .trace _ _ => none
  | .portRead _ _ => none
  | .portWrite _ _ => none
  | .biosVideo ah _ _ => if ah = Config.teletypeFunction then none else some (.videoNotImplemented ah)
  | .unknownInterrupt vec => some (.unknownInterrupt vec)

/-- The values the dump reports (60_exceptions.md R198): the registers in index order, EIP and the
flags word. -/
structure Dump where
  regs : List (Reg32 × Word)
  eip : Word
  flags : Word
deriving DecidableEq, Repr

/-- The dump after a halt; none while the run goes on, and none promised after the two faults
(60_exceptions.md R198); that there is none beside those two run values is the model's choice (log 11). -/
def State.dump (s : State) : Option Dump :=
  let d : Dump :=
    { regs := [.eax, .ecx, .edx, .ebx, .esp, .ebp, .esi, .edi].map fun r => (r, s.reg r)
      eip := s.eip
      flags := s.flags.word }
  match s.run with
  | .haltedNormal => some d
  | .haltedOutOfRange => some d
  | .haltedUnimplemented (.opcode _) => some d
  | .haltedUnimplemented (.addressingForm _ _ _ _) => none
  | .faultedOutOfBounds _ _ _ => none
  | .running => none

end Sys2Proof.Machine
end

