-- ==== Sys2Proof/Machine/Io.lean ====
section
/-! DEFINITION. Port I/O and the software interrupt (44_io_interrupt.md). None is privileged, none
writes the flags, and INT raises no trap (60_exceptions.md R188, R190). -/

namespace Sys2Proof.Machine

/-- The port number in DX (10_state.md R24). -/
def State.dx (s : State) : Port := (s.reg .edx).extractLsb' 0 16

/-- IN AL, DX (R170). -/
def execInAlDx (s : State) : Result :=
  let (v, t) := s.portRead s.dx
  finish (.ok ((t.setReg8 .al v).advance 1))

/-- OUT DX, AL (R171). -/
def execOutDxAl (s : State) : Result :=
  finish (.ok ((s.portWrite s.dx (s.reg8 .al)).advance 1))

/-- INT imm8 (R172): the BIOS video call for vector 0x10, a report for any other. -/
def execIntImm8 (vec : Byte) (s : State) : Result :=
  finish (.ok ((if vec = Config.videoVector then s.biosVideo else s.reportUnknown vec).advance 2))

end Sys2Proof.Machine
end

