-- ==== Sys2Proof/Machine/Move.lean ====
section
/-! DEFINITION. The move family (40_move.md). No move writes the flags. -/

namespace Sys2Proof.Machine

/-- MOV r8, imm8 (R100). -/
def execMovR8Imm (dst : Reg8) (imm : Byte) (s : State) : Result :=
  finish (.ok ((s.setReg8 dst imm).advance 2))

/-- MOV r32, imm32 (R101). -/
def execMovR32Imm (dst : Reg32) (imm : Word) (s : State) : Result :=
  finish (.ok ((s.setReg dst imm).advance 5))

/-- MOV r/m32, imm32 (R102). -/
def execMovRm32Imm (dst : Rm32) (imm : Word) (s : State) : Result :=
  finish do
    let t ← s.writeRm32 dst imm
    return t.advance (6 + dst.dispLen)

/-- MOV r8, r/m8 (R103). -/
def execMovR8Rm8 (dst : Reg8) (src : Rm8) (s : State) : Result :=
  finish do
    let v ← s.readRm8 src
    return (s.setReg8 dst v).advance (2 + src.dispLen)

/-- MOV r32, r/m32 (R104). -/
def execMovR32Rm32 (dst : Reg32) (src : Rm32) (s : State) : Result :=
  finish do
    let v ← s.readRm32 src
    return (s.setReg dst v).advance (2 + src.dispLen)

/-- MOV r/m8, r8 (R105). -/
def execMovRm8R8 (dst : Rm8) (src : Reg8) (s : State) : Result :=
  finish do
    let t ← s.writeRm8 dst (s.reg8 src)
    return t.advance (2 + dst.dispLen)

/-- MOV r/m32, r32 (R106). -/
def execMovRm32R32 (dst : Rm32) (src : Reg32) (s : State) : Result :=
  finish do
    let t ← s.writeRm32 dst (s.reg src)
    return t.advance (2 + dst.dispLen)

end Sys2Proof.Machine
end

