-- ==== Sys2Proof/Machine/Stack.lean ====
section
/-! DEFINITION. The stack family (42_stack.md). No stack instruction writes the flags. -/

namespace Sys2Proof.Machine

/-- PUSH r32 (R132): the value is read before ESP moves, so PUSH ESP pushes the old ESP. -/
def execPushR32 (src : Reg32) (s : State) : Result :=
  finish do
    let t ← s.push (s.reg src)
    return t.advance 1

/-- PUSH imm8 (R133). -/
def execPushImm8 (imm : Byte) (s : State) : Result :=
  finish do
    let t ← s.push (widenPushImm8 imm)
    return t.advance 2

/-- PUSH imm32 (R134). -/
def execPushImm32 (imm : Word) (s : State) : Result :=
  finish do
    let t ← s.push imm
    return t.advance 5

/-- POP r32 (R135): the destination is written after ESP moves, so POP ESP leaves the loaded
value. -/
def execPopR32 (dst : Reg32) (s : State) : Result :=
  finish do
    let (v, t) ← s.pop
    return (t.setReg dst v).advance 1

end Sys2Proof.Machine
end

