-- ==== Sys2Proof/Machine/Dispatch.lean ====
section
/-! DEFINITION. One arm per instruction (30_encoding.md R62), each one call of its meaning. -/

namespace Sys2Proof.Machine

def exec (i : Instr) (s : State) : Host.Outcome State Fault Refusal :=
  match i with
  | .movR8Imm dst imm => Sys2Proof.Machine.execMovR8Imm dst imm s
  | .movR32Imm dst imm => Sys2Proof.Machine.execMovR32Imm dst imm s
  | .movRm32Imm dst imm => Sys2Proof.Machine.execMovRm32Imm dst imm s
  | .movR8Rm8 dst src => Sys2Proof.Machine.execMovR8Rm8 dst src s
  | .movR32Rm32 dst src => Sys2Proof.Machine.execMovR32Rm32 dst src s
  | .movRm8R8 dst src => Sys2Proof.Machine.execMovRm8R8 dst src s
  | .movRm32R32 dst src => Sys2Proof.Machine.execMovRm32R32 dst src s
  | .addRm32R32 dst src => Sys2Proof.Machine.execAddRm32R32 dst src s
  | .addRm32Imm8 dst imm => Sys2Proof.Machine.execAddRm32Imm8 dst imm s
  | .subRm32Imm8 dst imm => Sys2Proof.Machine.execSubRm32Imm8 dst imm s
  | .cmpRm32Imm8 lhs imm => Sys2Proof.Machine.execCmpRm32Imm8 lhs imm s
  | .cmpR32Rm32 lhs rhs => Sys2Proof.Machine.execCmpR32Rm32 lhs rhs s
  | .cmpAlImm8 imm => Sys2Proof.Machine.execCmpAlImm8 imm s
  | .cmpEaxImm32 imm => Sys2Proof.Machine.execCmpEaxImm32 imm s
  | .incR32 dst => Sys2Proof.Machine.execIncR32 dst s
  | .incRm32 dst => Sys2Proof.Machine.execIncRm32 dst s
  | .pushR32 src => Sys2Proof.Machine.execPushR32 src s
  | .pushImm8 imm => Sys2Proof.Machine.execPushImm8 imm s
  | .pushImm32 imm => Sys2Proof.Machine.execPushImm32 imm s
  | .popR32 dst => Sys2Proof.Machine.execPopR32 dst s
  | .jmpRel8 rel => Sys2Proof.Machine.execJmpRel8 rel s
  | .jmpRel32 rel => Sys2Proof.Machine.execJmpRel32 rel s
  | .jo rel => Sys2Proof.Machine.execJo rel s
  | .jno rel => Sys2Proof.Machine.execJno rel s
  | .jc rel => Sys2Proof.Machine.execJc rel s
  | .jnc rel => Sys2Proof.Machine.execJnc rel s
  | .jz rel => Sys2Proof.Machine.execJz rel s
  | .jnz rel => Sys2Proof.Machine.execJnz rel s
  | .js rel => Sys2Proof.Machine.execJs rel s
  | .jns rel => Sys2Proof.Machine.execJns rel s
  | .jl rel => Sys2Proof.Machine.execJl rel s
  | .jle rel => Sys2Proof.Machine.execJle rel s
  | .callRel32 rel => Sys2Proof.Machine.execCallRel32 rel s
  | .ret => Sys2Proof.Machine.execRet s
  | .leave => Sys2Proof.Machine.execLeave s
  | .inAlDx => Sys2Proof.Machine.execInAlDx s
  | .outDxAl => Sys2Proof.Machine.execOutDxAl s
  | .intImm8 vec => Sys2Proof.Machine.execIntImm8 vec s

end Sys2Proof.Machine
end

