-- ==== Sys2Proof/Machine/Step.lean ====
section
/-! DEFINITION. One step of the fetch-decode-execute loop (30_encoding.md R76), and how the host
places one instruction under it. -/

namespace Sys2Proof.Machine

/-- Step() (30_encoding.md R76): no step is taken from a terminal run state (10_state.md R34; log
12); a fetch at or beyond MEM_SIZE ends the run (R79); otherwise the bytes at `eip` are decoded and
the instruction's handler runs, and then the halt at zero is looked at (R78). A step that faults
answers no state (log 11); the trace line it emitted before is in `State.hostLogAfterStep` (log 7). -/
def step (s : State) : Host.Outcome State Fault Refusal :=
  match s.run with
  | .running =>
    if s.eip.toNat < Config.memSize then
      match decode s.codeBytes with
      | .ok (i, _) => afterHandler (exec i s.traceFetch)
      | .error e => s.traceFetch.reject e
    else .next s.exitOutOfRange
  | .haltedNormal => raise (.runEnded s.run)
  | .haltedUnimplemented _ => raise (.runEnded s.run)
  | .haltedOutOfRange => raise (.runEnded s.run)
  | .faultedOutOfBounds _ _ _ => raise (.runEnded s.run)

/-- `s` with a table word's instruction stored at `eip`, where `step` fetches its next instruction;
it stands for the image loader (60_exceptions.md R196; log 13). -/
def State.withFetchWord (s : State) (nbits w : Nat) : State := s.storeCode (tableBytes nbits w)

end Sys2Proof.Machine
end

