-- ==== Sys2Proof/Machine/Launch.lean ====
section
/-! DEFINITION. How a run is set up from outside (70_reset_and_hazards.md R210, R211): the launch
parameters that 00_scope.md leaves open, and the image the loader places. -/

namespace Sys2Proof.Machine

/-- The launch parameters (00_scope.md R6 to R8, R11). `initGpr.esp` plays no part: ESP starts at
`initEsp`. -/
structure Launch where
  loadAddr : Word
  initEsp : Word
  initGpr : Regs
  initFlags : Flags
  initMem : Memory
  image : List Byte
deriving DecidableEq, Repr

/-- The configurations a model accepts (70_reset_and_hazards.md R211). -/
abbrev Launch.valid (l : Launch) : Prop :=
  l.image.length ≤ Config.maxImageLen ∧ l.loadAddr.toNat + l.image.length ≤ Config.memSize

/-- The state a run starts from (10_state.md R38), or none for a configuration that is refused. -/
def State.launch (l : Launch) : Option State :=
  if l.valid then
    some
      { regs := l.initGpr.set .esp l.initEsp
        eip := l.loadAddr
        flags := l.initFlags
        mem := Memory.place l.initMem l.loadAddr.toNat l.image
        run := .running
        hostLog := []
        consoleReads := 0 }
  else none

/-- The launch that `State.reset` is: no image, and the parameters at the values of log 1 to 5. -/
def defaultLaunch : Launch where
  loadAddr := Config.loadAddr
  initEsp := Config.initEsp
  initGpr := ⟨Config.initGpr, Config.initGpr, Config.initGpr, Config.initGpr,
              Config.initGpr, Config.initGpr, Config.initGpr, Config.initGpr⟩
  initFlags := ⟨Config.initFlag, Config.initFlag, Config.initFlag, Config.initFlag⟩
  initMem := []
  image := []

end Sys2Proof.Machine
end

