-- ==== Sys2Proof/Machine/Ends.lean ====
section
/-! DEFINITION. The fault kinds' codes and terminal run values (60_exceptions.md R181) and which
ends of a run are clean (R203). -/

namespace Sys2Proof.Machine

/-- The terminal run value of an end that is no fault has no code; the three fault kinds have 1, 2
and 3 (60_exceptions.md R181). -/
def RunState.faultCode : RunState → Option Nat
  | .running => none
  | .haltedNormal => none
  | .haltedOutOfRange => none
  | .haltedUnimplemented (.opcode _) => some 1
  | .haltedUnimplemented (.addressingForm _ _ _ _) => some 2
  | .faultedOutOfBounds _ _ _ => some 3

/-- The run value that a fault sets, with what it records (60_exceptions.md R180, R181). A step from
an ended run leaves the run as it is. -/
def Fault.runState : Fault → RunState
  | .unimplementedAddressingForm op mod reg rm =>
    .haltedUnimplemented (.addressingForm op mod reg rm)
  | .outOfBounds addr n kind => .faultedOutOfBounds addr n kind
  | .runEnded run => run

/-- The clean ends of a run (60_exceptions.md R203). -/
def RunState.cleanEnd : RunState → Bool
  | .running => false
  | .haltedNormal => true
  | .haltedOutOfRange => true
  | .haltedUnimplemented (.opcode _) => true
  | .haltedUnimplemented (.addressingForm _ _ _ _) => false
  | .faultedOutOfBounds _ _ _ => false

end Sys2Proof.Machine
end

