-- ==== Sys2Proof/Machine/Run.lean ====
section
/-! DEFINITION. The host's log after a step, whatever the step answers, and the executor under fuel
(70_reset_and_hazards.md R216): so many steps at most, and what came of them. The CORE itself has no
timeout (60_exceptions.md R191). -/

namespace Sys2Proof.Machine

/-- The host's log when a step raises `f`. A fault of the CORE comes after the opcode fetch, so the
trace line is in it (30_encoding.md R76, 60_exceptions.md R197), and no other call is: IN, OUT and INT,
the only callers, do not fault. An ended run makes no call. -/
def State.hostLogAtFault (s : State) : Fault → List HostEvent
  | .unimplementedAddressingForm _ _ _ _ => s.traceFetch.hostLog
  | .outOfBounds _ _ _ => s.traceFetch.hostLog
  | .runEnded _ => s.hostLog

/-- The host's log after a step: that of the next state, or, beside a fault, which carries no state,
what the step had put there before it faulted (30_encoding.md R76; log 7). -/
def State.hostLogAfterStep (s : State) : List HostEvent :=
  match step s with
  | .next t => t.hostLog
  | .fault f => s.hostLogAtFault f
  | .refused _ => s.traceFetch.hostLog

/-- What a run under fuel came to. -/
inductive RunOutcome where
  /-- The run ended: `run` of the state is not Running (60_exceptions.md R203). -/
  | ended (s : State)
  /-- A step raised a fault, which ends the run with no state (60_exceptions.md R183, R184); the
  host's log, which is no CORE state, stays. -/
  | faulted (f : Fault) (log : List HostEvent)
  /-- A step was refused; no step is. -/
  | refused (r : Refusal) (log : List HostEvent)
  /-- The fuel ran out in a running state: no end of the run (70_reset_and_hazards.md R216). -/
  | outOfFuel (s : State)
deriving DecidableEq, Repr

/-- At most `fuel` steps from a state, stopping where the run ends (70_reset_and_hazards.md R216). -/
def State.runFor : Nat → State → RunOutcome
  | 0, s => if s.run = .running then .outOfFuel s else .ended s
  | fuel + 1, s =>
    if s.run = .running then
      match step s with
      | .next t => State.runFor fuel t
      | .fault f => .faulted f s.hostLogAfterStep
      | .refused r => .refused r s.hostLogAfterStep
    else .ended s

/-- Whether the run has ended (60_exceptions.md R203): running out of fuel is no end. -/
def RunOutcome.isEnd : RunOutcome → Bool
  | .ended _ => true
  | .faulted _ _ => true
  | .refused _ _ => false
  | .outOfFuel _ => false

/-- Whether the run has come to a clean end (60_exceptions.md R203). -/
def RunOutcome.cleanEnd : RunOutcome → Bool
  | .ended s => s.run.cleanEnd
  | .faulted _ _ => false
  | .refused _ _ => false
  | .outOfFuel _ => false

/-- The host's log at the end of a run under fuel, or where its fuel ran out (60_exceptions.md R192
to R197). -/
def RunOutcome.hostLog : RunOutcome → List HostEvent
  | .ended s => s.hostLog
  | .faulted _ log => log
  | .refused _ log => log
  | .outOfFuel s => s.hostLog

end Sys2Proof.Machine
end

