-- ==== Sys2Proof/Safety.lean ====
section
/-! DEFINITION. The terms in which claims speak of a safe run: which accesses lie in memory, what an
instruction may touch, and the invariant every step keeps. -/

namespace Sys2Proof.Machine

/-! ## Access conditions -/

/-- The `n` bytes at `a` all lie in memory (20_memory.md R44). -/
abbrev InMemory (a : Word) (n : Nat) : Prop := a.toNat + n ≤ Config.memSize

/-- The 32-bit r/m operand can be accessed: a register, or four bytes in memory. -/
abbrev Rm32Accessible (d : Rm32) (s : State) : Prop :=
  match d with
  | .reg _ => True
  | .mem m => InMemory (MemRef.ea m s) 4

/-- The 8-bit r/m operand can be accessed: a view, or a byte in memory. -/
abbrev Rm8Accessible (d : Rm8) (s : State) : Prop :=
  match d with
  | .reg _ => True
  | .mem m => InMemory (MemRef.ea m s) 1

/-- The value a 32-bit r/m operand holds (30_encoding.md R68). -/
def rm32Value (d : Rm32) (s : State) : Word :=
  match d with
  | .reg r => s.reg r
  | .mem m => Memory.read32 s.mem (MemRef.ea m s).toNat

/-- The value an 8-bit r/m operand holds (30_encoding.md R68). -/
def rm8Value (d : Rm8) (s : State) : Byte :=
  match d with
  | .reg r => s.reg8 r
  | .mem m => Memory.read s.mem (MemRef.ea m s).toNat

/-! ## Frames -/

/-- Every byte of memory reads as before. -/
def SameMemory (s t : State) : Prop := ∀ a, Memory.read t.mem a = Memory.read s.mem a

/-- The bytes `bs` are stored from address `a` on, and every other byte of memory reads as before. -/
def StoredAt (a : Nat) (bs : List Byte) (s t : State) : Prop :=
  ∀ b, Memory.read t.mem b =
    if h : a ≤ b ∧ b - a < bs.length then bs[b - a]'h.2 else Memory.read s.mem b

/-- Every general register is as before. -/
def SameRegs (s t : State) : Prop := ∀ r, t.reg r = s.reg r

/-- Register `r` holds `v` and every other register is as before. -/
def RegWritten (r : Reg32) (v : Word) (s t : State) : Prop :=
  ∀ q, t.reg q = if q = r then v else s.reg q

/-- The 8-bit view `i` holds `v`, and every bit of every register outside it is as before. -/
def ViewWritten (i : Reg8) (v : Byte) (s t : State) : Prop :=
  t.reg8 i = v ∧
  ∀ (q : Reg32) (k : Nat),
    ¬(q = viewReg i ∧ (if viewHigh i then 8 else 0) ≤ k ∧ k < (if viewHigh i then 16 else 8)) →
    (t.reg q).getLsbD k = (s.reg q).getLsbD k

/-- The 32-bit r/m operand `d` of `s` is written with `v`, and no other register or memory byte. -/
def Rm32Written (d : Rm32) (v : Word) (s t : State) : Prop :=
  match d with
  | .reg r => RegWritten r v s t ∧ SameMemory s t
  | .mem m => SameRegs s t ∧ StoredAt (MemRef.ea m s).toNat (leBytes v) s t

/-- The 8-bit r/m operand `d` of `s` is written with `v`, and no other register bit or memory
byte. -/
def Rm8Written (d : Rm8) (v : Byte) (s t : State) : Prop :=
  match d with
  | .reg i => ViewWritten i v s t ∧ SameMemory s t
  | .mem m => SameRegs s t ∧ StoredAt (MemRef.ea m s).toNat [v] s t

/-- The run state, the collaborator calls and the console count are as before. -/
def SameRest (s t : State) : Prop :=
  t.run = s.run ∧ t.hostLog = s.hostLog ∧ t.consoleReads = s.consoleReads

/-! ## Kinds of instructions -/

/-- The control transfers (43_control.md), LEAVE apart: it advances by its length. -/
def isTransfer : Instr → Bool
  | .jmpRel8 _ | .jmpRel32 _ | .callRel32 _ | .ret => true
  | .jo _ | .jno _ | .jc _ | .jnc _ | .jz _ | .jnz _ | .js _ | .jns _ | .jl _ | .jle _ => true
  | .movR8Imm _ _ | .movR32Imm _ _ | .movRm32Imm _ _ | .movR8Rm8 _ _ | .movR32Rm32 _ _ => false
  | .movRm8R8 _ _ | .movRm32R32 _ _ | .addRm32R32 _ _ | .addRm32Imm8 _ _ => false
  | .subRm32Imm8 _ _ | .cmpRm32Imm8 _ _ | .cmpR32Rm32 _ _ | .cmpAlImm8 _ => false
  | .cmpEaxImm32 _ | .incR32 _ | .incRm32 _ => false
  | .pushR32 _ | .pushImm8 _ | .pushImm32 _ | .popR32 _ | .leave => false
  | .inAlDx | .outDxAl | .intImm8 _ => false

/-- The ten conditional jumps (43_control.md R142), the readers of the flags. -/
def readsFlags : Instr → Bool
  | .jo _ | .jno _ | .jc _ | .jnc _ | .jz _ | .jnz _ | .js _ | .jns _ | .jl _ | .jle _ => true
  | .jmpRel8 _ | .jmpRel32 _ | .callRel32 _ | .ret | .leave => false
  | .movR8Imm _ _ | .movR32Imm _ _ | .movRm32Imm _ _ | .movR8Rm8 _ _ | .movR32Rm32 _ _ => false
  | .movRm8R8 _ _ | .movRm32R32 _ _ | .addRm32R32 _ _ | .addRm32Imm8 _ _ => false
  | .subRm32Imm8 _ _ | .cmpRm32Imm8 _ _ | .cmpR32Rm32 _ _ | .cmpAlImm8 _ => false
  | .cmpEaxImm32 _ | .incR32 _ | .incRm32 _ => false
  | .pushR32 _ | .pushImm8 _ | .pushImm32 _ | .popR32 _ => false
  | .inAlDx | .outDxAl | .intImm8 _ => false

/-- The five writers of the flags (10_state.md R28). -/
def writesFlags : Instr → Bool
  | .subRm32Imm8 _ _ | .cmpRm32Imm8 _ _ | .cmpR32Rm32 _ _ | .cmpAlImm8 _ | .cmpEaxImm32 _ => true
  | .movR8Imm _ _ | .movR32Imm _ _ | .movRm32Imm _ _ | .movR8Rm8 _ _ | .movR32Rm32 _ _ => false
  | .movRm8R8 _ _ | .movRm32R32 _ _ | .addRm32R32 _ _ | .addRm32Imm8 _ _ => false
  | .incR32 _ | .incRm32 _ => false
  | .pushR32 _ | .pushImm8 _ | .pushImm32 _ | .popR32 _ => false
  | .jmpRel8 _ | .jmpRel32 _ | .callRel32 _ | .ret | .leave => false
  | .jo _ | .jno _ | .jc _ | .jnc _ | .jz _ | .jnz _ | .js _ | .jns _ | .jl _ | .jle _ => false
  | .inAlDx | .outDxAl | .intImm8 _ => false

/-- The registers a 32-bit destination operand writes. -/
def rm32DestRegs : Rm32 → List Reg32
  | .reg r => [r]
  | .mem _ => []

/-- The 32-bit registers an 8-bit destination operand writes part of. -/
def rm8DestRegs : Rm8 → List Reg32
  | .reg i => [viewReg i]
  | .mem _ => []

/-- The registers an instruction may write: its destination, and the ones its rule also updates
(ESP for the stack forms, EBP for LEAVE, AL of EAX for IN; 10_state.md R21). -/
def destRegs : Instr → List Reg32
  | .movR8Imm d _ => [viewReg d]
  | .movR32Imm d _ => [d]
  | .movRm32Imm d _ => rm32DestRegs d
  | .movR8Rm8 d _ => [viewReg d]
  | .movR32Rm32 d _ => [d]
  | .movRm8R8 d _ => rm8DestRegs d
  | .movRm32R32 d _ => rm32DestRegs d
  | .addRm32R32 d _ => rm32DestRegs d
  | .addRm32Imm8 d _ => rm32DestRegs d
  | .subRm32Imm8 d _ => rm32DestRegs d
  | .cmpRm32Imm8 _ _ | .cmpR32Rm32 _ _ | .cmpAlImm8 _ | .cmpEaxImm32 _ => []
  | .incR32 d => [d]
  | .incRm32 d => rm32DestRegs d
  | .pushR32 _ | .pushImm8 _ | .pushImm32 _ => [.esp]
  | .popR32 d => [.esp, d]
  | .jmpRel8 _ | .jmpRel32 _ => []
  | .jo _ | .jno _ | .jc _ | .jnc _ | .jz _ | .jnz _ | .js _ | .jns _ | .jl _ | .jle _ => []
  | .callRel32 _ | .ret => [.esp]
  | .leave => [.esp, .ebp]
  | .inAlDx => [.eax]
  | .outDxAl | .intImm8 _ => []

/-- Where a 32-bit memory destination stores: its effective address and four bytes. -/
def rm32Store (d : Rm32) (s : State) : Option (Word × Nat) :=
  match d with
  | .reg _ => none
  | .mem m => some (MemRef.ea m s, 4)

/-- Where an 8-bit memory destination stores: its effective address and one byte. -/
def rm8Store (d : Rm8) (s : State) : Option (Word × Nat) :=
  match d with
  | .reg _ => none
  | .mem m => some (MemRef.ea m s, 1)

/-- Where an instruction stores in `s`, and how many bytes: a memory destination, or the stack slot
under ESP (20_memory.md R49); none for every other form. -/
def storeOf (i : Instr) (s : State) : Option (Word × Nat) :=
  match i with
  | .movRm32Imm d _ => rm32Store d s
  | .movRm8R8 d _ => rm8Store d s
  | .movRm32R32 d _ => rm32Store d s
  | .addRm32R32 d _ => rm32Store d s
  | .addRm32Imm8 d _ => rm32Store d s
  | .subRm32Imm8 d _ => rm32Store d s
  | .incRm32 d => rm32Store d s
  | .pushR32 _ | .pushImm8 _ | .pushImm32 _ | .callRel32 _ => some (s.reg .esp - 4#32, 4)
  | .movR8Imm _ _ | .movR32Imm _ _ | .movR8Rm8 _ _ | .movR32Rm32 _ _ => none
  | .cmpRm32Imm8 _ _ | .cmpR32Rm32 _ _ | .cmpAlImm8 _ | .cmpEaxImm32 _ | .incR32 _ => none
  | .popR32 _ | .jmpRel8 _ | .jmpRel32 _ | .ret | .leave => none
  | .jo _ | .jno _ | .jc _ | .jnc _ | .jz _ | .jnz _ | .js _ | .jns _ | .jl _ | .jle _ => none
  | .inAlDx | .outDxAl | .intImm8 _ => none

/-! ## The invariant -/

/-- The run state fits the rest of the state (10_state.md R34): a normal halt stands at address 0, an
out-of-range exit at or beyond MEM_SIZE, an opcode halt at the unregistered byte it names, and the
two faults are no states at all. -/
def RunCoherent (s : State) : Prop :=
  match s.run with
  | .running => True
  | .haltedNormal => s.eip = 0#32
  | .haltedOutOfRange => Config.memSize ≤ s.eip.toNat
  | .haltedUnimplemented (.opcode op) =>
    s.eip.toNat < Config.memSize ∧ Memory.read s.mem s.eip.toNat = op ∧ handlerOf op = none
  | .haltedUnimplemented (.addressingForm _ _ _ _) => False
  | .faultedOutOfBounds _ _ _ => False

/-- Whether a collaborator call took a byte of the console's input. -/
def isConsoleRead : HostEvent → Bool
  | .portRead p _ => p == Config.consolePort
  | .trace _ _ => false
  | .portWrite _ _ => false
  | .biosVideo _ _ _ => false
  | .unknownInterrupt _ => false

/-- The invariant of the machine: memory is in canonical form, the run state fits, and the console
count is the number of console reads made. -/
def State.Inv (s : State) : Prop :=
  Memory.wf s.mem ∧ RunCoherent s ∧ s.consoleReads = (s.hostLog.filter isConsoleRead).length

end Sys2Proof.Machine
end

