-- ==== Sys2Proof/Certificates/Slice0/Obligations.lean ====
section
/-! DEFINITION. The statements for the provers, one `def Obligations.<Name> : Prop` each, in the order
of OBLIGATIONS.json. A docstring names the rule of spec/ the statement follows, and the spec's
decision or the log entry where it rests on one. -/

open Sys2Proof Sys2Proof.Machine

/-! ## Encoding -/

/-- Decoding an encoded well-formed instruction gives it back, with any bytes after it
(30_encoding.md R60 to R74; the opcode bytes and the ModRM layout are the spec's own readings, D20,
D21). -/
def Obligations.DecodeUndoesEncode : Prop :=
  ∀ (i : Instr) (rest : List Byte), i.wf = true → decode (encode i ++ rest) = .ok (i, rest)

/-- What the decoder accepts is a well-formed instruction whose encoding is the bytes it took: every
accepted byte string has one reading (30_encoding.md R81, R84; D20, D21). -/
def Obligations.DecodedBytesReencode : Prop :=
  ∀ (bs : List Byte) (i : Instr) (rest : List Byte),
    decode bs = .ok (i, rest) → i.wf = true ∧ encode i ++ rest = bs

/-- Bytes of the spec's worked examples decode to the instructions they are written for
(95_test_vectors.md sections 1 and 2). -/
def Obligations.WorkedExamplesDecode : Prop :=
  decode [0x01, 0xD8] = .ok (.addRm32R32 (.reg .eax) .ebx, []) ∧
  decode [0xC7, 0x05, 0x00, 0x90, 0x00, 0x00, 0x78, 0x56, 0x34, 0x12] =
    .ok (.movRm32Imm (.mem (.abs 0x9000)) 0x12345678, []) ∧
  decode [0x8A, 0xC4] = .ok (.movR8Rm8 .al (.reg .ah), []) ∧
  decode [0x8B, 0x45, 0x08] = .ok (.movR32Rm32 .eax (.mem (.disp8 .ebp 8)), []) ∧
  decode [0x83, 0xE8, 0x07] = .ok (.subRm32Imm8 (.reg .eax) 7, []) ∧
  decode [0x55] = .ok (.pushR32 .ebp, []) ∧
  decode [0xE9, 0xFB, 0x83, 0xFF, 0xFF] = .ok (.jmpRel32 0xFFFF83FB, []) ∧
  decode [0x7C, 0xF8] = .ok (.jl 0xF8, []) ∧
  decode [0xCD, 0x10] = .ok (.intImm8 0x10, []) ∧
  decode [0xEC] = .ok (.inAlDx, [])

/-- Exactly the 71 bytes of the opcode map have a handler, and no byte matches two rows of it
(30_encoding.md R72; the byte values are the spec's own reading, D20). -/
def Obligations.RegisteredOpcodeBytes : Prop :=
  ∀ op : Byte,
    ((handlerOf op).isSome = true ↔
      op ∈ ([0x01, 0x3B, 0x3C, 0x3D,
        0x40, 0x41, 0x42, 0x43, 0x44, 0x45, 0x46, 0x47,
        0x50, 0x51, 0x52, 0x53, 0x54, 0x55, 0x56, 0x57,
        0x58, 0x59, 0x5A, 0x5B, 0x5C, 0x5D, 0x5E, 0x5F, 0x68, 0x6A,
        0x70, 0x71, 0x72, 0x73, 0x74, 0x75, 0x78, 0x79, 0x7C, 0x7E,
        0x83, 0x88, 0x89, 0x8A, 0x8B,
        0xB0, 0xB1, 0xB2, 0xB3, 0xB4, 0xB5, 0xB6, 0xB7,
        0xB8, 0xB9, 0xBA, 0xBB, 0xBC, 0xBD, 0xBE, 0xBF,
        0xC3, 0xC7, 0xC9, 0xCD, 0xE8, 0xE9, 0xEB, 0xEC, 0xEE, 0xFF] : List Byte)) ∧
    (opRows.filter fun r => op &&& r.mask == r.pattern).length ≤ 1

/-- A ModRM byte with mod ≠ 3 and rm = 4 needs a SIB byte, and the step that fetches one faults with
the opcode and the ModRM fields (30_encoding.md R65; raised once the SIB byte is consumed, D11). -/
def Obligations.SibFormsFault : Prop :=
  ∀ (s : State) (b : Byte),
    s.run = .running → s.eip.toNat + 3 ≤ Config.memSize →
    Memory.read s.mem s.eip.toNat ∈
      ([0x01, 0x3B, 0x83, 0x88, 0x89, 0x8A, 0x8B, 0xC7, 0xFF] : List Byte) →
    Memory.read s.mem (s.eip.toNat + 1) = b → b.extractLsb' 6 2 ≠ 3#2 → b.extractLsb' 0 3 = 4#3 →
    step s = .fault (.unimplementedAddressingForm (Memory.read s.mem s.eip.toNat)
      (b.extractLsb' 6 2) (b.extractLsb' 3 3) 4#3)

/-- A reg field that names no form of 0x83, 0xFF or 0xC7 is rejected after the whole ModRM descriptor
and before any immediate, whatever bytes follow; where the descriptor is cut off inside its
displacement, the fetch of the displacement comes first, whatever the reg field (30_encoding.md R73,
R74, 60_exceptions.md R186; C7 by D10, the order by D11). -/
def Obligations.UnrecognisedGroupFieldsAreRejected : Prop :=
  (∀ (op : Byte) (reg : BitVec 3) (d : Rm32) (rest : List Byte), d.wf = true →
    (op = 0x83#8 ∧ reg ∉ [0#3, 5#3, 7#3]) ∨ (op = 0xFF#8 ∧ reg ≠ 0#3) ∨
      (op = 0xC7#8 ∧ reg ≠ 0#3) →
    ∃ b tail, d.encode reg = b :: tail ∧
      decode (op :: (d.encode reg ++ rest)) =
        .error (.unimplementedForm op (b.extractLsb' 6 2) reg (b.extractLsb' 0 3))) ∧
  (∀ (op : Byte) (reg : BitVec 3) (d : Rm32) (k : Nat), d.wf = true →
    op ∈ [0x83#8, 0xFF#8, 0xC7#8] → 1 ≤ k → k < (d.encode reg).length →
    decode (op :: (d.encode reg).take k) = .error (.truncated 2 d.dispLen))

/-! ## The loop -/

/-- When the bytes at `eip` decode to `i`, the step is `exec i`, with the trace line before it when
TRACE is on and the look at address zero after it (30_encoding.md R76, R78). -/
def Obligations.StepRunsTheDecodedInstruction : Prop :=
  ∀ (s : State) (i : Instr) (rest : List Byte),
    s.run = .running → s.eip.toNat < Config.memSize → decode s.codeBytes = .ok (i, rest) →
    step s =
      match exec i { s with
          hostLog :=
            if Config.trace then s.hostLog ++ [.trace (Memory.read s.mem s.eip.toNat) s.eip]
            else s.hostLog } with
      | .next t => .next (if t.eip = 0#32 then { t with run := .haltedNormal } else t)
      | .fault f => .fault f
      | .refused r => .refused r

/-- A well-formed instruction whose encoding stands in memory at `eip` is the one the step runs,
whatever bytes follow it (20_memory.md R45, R57; 30_encoding.md R76). -/
def Obligations.StepRunsTheInstructionInMemory : Prop :=
  ∀ (s : State) (i : Instr),
    s.run = .running → i.wf = true → s.eip.toNat + (encode i).length ≤ Config.memSize →
    (∀ (k : Nat) (h : k < (encode i).length),
      Memory.read s.mem (s.eip.toNat + k) = (encode i)[k]) →
    step s = afterHandler (exec i s.traceFetch)

/-- Every byte of an instruction that a step decodes lies in memory (20_memory.md R44, R45; the
bounds check is the spec's decision D1). -/
def Obligations.DecodedInstructionsLieInMemory : Prop :=
  ∀ (s : State) (i : Instr) (rest : List Byte),
    s.eip.toNat < Config.memSize → decode s.codeBytes = .ok (i, rest) →
    s.eip.toNat + i.length ≤ Config.memSize

/-- An instruction cut off by the end of memory faults on the fetch that reaches past it, with that
fetch's address and width (20_memory.md R44, R45; D1). -/
def Obligations.CutOffInstructionsFaultOnFetch : Prop :=
  ∀ (s : State) (off n : Nat),
    s.run = .running → s.eip.toNat < Config.memSize →
    decode s.codeBytes = .error (.truncated off n) →
    step s = .fault (.outOfBounds (s.eip + BitVec.ofNat 32 off) n .fetch) ∧
      Config.memSize < (s.eip + BitVec.ofNat 32 off).toNat + n

/-- An unregistered opcode byte halts the run with only the run state changed, and the dump still
occurs (60_exceptions.md R182). That the code is the number 1 is the spec's own numbering (R181,
D18; log 18). -/
def Obligations.UnregisteredOpcodeHaltsPrecisely : Prop :=
  ∀ (s : State),
    s.run = .running → s.eip.toNat < Config.memSize →
    handlerOf (Memory.read s.mem s.eip.toNat) = none →
    ∃ t, step s = .next t ∧
      t.run = .haltedUnimplemented (.opcode (Memory.read s.mem s.eip.toNat)) ∧
      t.run.faultCode = some 1 ∧
      t.regs = s.regs ∧ t.flags = s.flags ∧ t.mem = s.mem ∧ t.eip = s.eip ∧
      t.dump.isSome = true

/-- An `eip` at or beyond MEM_SIZE before a fetch ends the run with no other change (30_encoding.md
R79, by D15). -/
def Obligations.OutOfRangeFetchEndsTheRun : Prop :=
  ∀ (s : State), s.run = .running → Config.memSize ≤ s.eip.toNat →
    step s = .next { s with run := .haltedOutOfRange }

/-- No next state follows a terminal run state (10_state.md R34). That the step answers the fault
`runEnded` there is the model's choice (log 12). A run under fuel takes its steps one by one; it ends
where `run` is no longer Running or a step faults, more fuel then changes nothing, and running out of
fuel is no end: `EB FE` runs out of any fuel (70_reset_and_hazards.md R216, 60_exceptions.md R203,
D28). -/
def Obligations.EndedRunsTakeNoStep : Prop :=
  (∀ (s : State), s.run ≠ .running →
    step s = .fault (.runEnded s.run) ∧ ∀ n, State.runFor n s = .ended s) ∧
  (∀ (s : State), s.run = .running →
    State.runFor 0 s = .outOfFuel s ∧
    (∀ t n, step s = .next t → State.runFor (n + 1) s = State.runFor n t) ∧
    (∀ f n, step s = .fault f → State.runFor (n + 1) s = .faulted f s.hostLogAfterStep)) ∧
  (∀ (n : Nat) (s t : State), State.runFor n s = .outOfFuel t →
    t.run = .running ∧ (State.runFor n s).isEnd = false ∧ (State.runFor n s).cleanEnd = false) ∧
  (∀ (n k : Nat) (s : State), (State.runFor n s).isEnd = true →
    State.runFor (n + k) s = State.runFor n s) ∧
  (∀ (n : Nat) (s : State), s.run = .running → s.eip ≠ 0#32 → s.eip.toNat + 2 ≤ Config.memSize →
    Memory.read s.mem s.eip.toNat = 0xEB#8 → Memory.read s.mem (s.eip.toNat + 1) = 0xFE#8 →
    ∃ t, State.runFor n s = .outOfFuel t ∧ t.eip = s.eip)

/-- A step of a running machine answers a next state, the addressing-form fault, or an out-of-bounds
fault whose access really passes the end of memory; it never refuses (30_encoding.md R84). -/
def Obligations.StepEndsInANamedWay : Prop :=
  ∀ (s : State), s.run = .running →
    (∃ t, step s = .next t) ∨
    (∃ op mod reg rm, step s = .fault (.unimplementedAddressingForm op mod reg rm)) ∨
    (∃ a n kind, step s = .fault (.outOfBounds a n kind) ∧ Config.memSize < a.toNat + n)

/-- Only a control transfer ends a run normally, and any instruction that leaves `eip` at 0 does so
(30_encoding.md R78). -/
def Obligations.OnlyTransfersToZeroHaltNormally : Prop :=
  ∀ (s t : State), step s = .next t →
    (t.run = .haltedNormal →
      t.eip = 0#32 ∧ ∃ i rest, decode s.codeBytes = .ok (i, rest) ∧ isTransfer i = true) ∧
    (∀ i rest, s.eip.toNat < Config.memSize → decode s.codeBytes = .ok (i, rest) →
      t.eip = 0#32 → t.run = .haltedNormal)

/-! ## Start of a run and invariant -/

/-- What reset leaves. Running is the spec's (10_state.md R38); the load address, ESP, the other
registers, the flags and memory are the model's choices (log 1 to 5). -/
def Obligations.ResetLeavesTheChosenStart : Prop :=
  State.reset.run = .running ∧ State.reset.eip = 0x7C00#32 ∧ State.reset.reg .esp = 0x7C00#32 ∧
  (∀ r, r ≠ Reg32.esp → State.reset.reg r = 0#32) ∧
  State.reset.flags = ⟨false, false, false, false⟩ ∧
  ∀ a, Memory.read State.reset.mem a = 0#8

/-- For every setting of the launch parameters, a valid configuration starts as 10_state.md R38 and
70_reset_and_hazards.md R210 say, and any other is refused (R211). -/
def Obligations.LaunchStartsAsConfigured : Prop :=
  ∀ l : Launch,
    (l.image.length ≤ 512 ∧ l.loadAddr.toNat + l.image.length ≤ 1048576 →
      ∃ s, State.launch l = some s ∧
        s.run = .running ∧ s.eip = l.loadAddr ∧ s.reg .esp = l.initEsp ∧
        (∀ r, r ≠ Reg32.esp → s.reg r = l.initGpr.get r) ∧ s.flags = l.initFlags ∧
        (∀ (k : Nat) (h : k < l.image.length),
          Memory.read s.mem (l.loadAddr.toNat + k) = l.image[k]) ∧
        (∀ a, ¬(l.loadAddr.toNat ≤ a ∧ a < l.loadAddr.toNat + l.image.length) →
          Memory.read s.mem a = Memory.read l.initMem a)) ∧
    (¬(l.image.length ≤ 512 ∧ l.loadAddr.toNat + l.image.length ≤ 1048576) →
      State.launch l = none)

/-- The reset state meets the invariant. -/
def Obligations.ResetMeetsTheInvariant : Prop := State.reset.Inv

/-- A launched state meets the invariant when its initial memory is in canonical form. -/
def Obligations.LaunchMeetsTheInvariant : Prop :=
  ∀ (l : Launch) (s : State), Memory.wf l.initMem → State.launch l = some s → s.Inv

/-- Every step keeps the invariant: memory stays canonical and below MEM_SIZE, a terminal run value
always fits the rest of the state, and the console count is the number of console reads
(10_state.md R33, R34; 20_memory.md R43, R44). -/
def Obligations.StepKeepsTheInvariant : Prop :=
  ∀ (s t : State), s.Inv → step s = .next t → t.Inv

/-- No step reads the host's log, and it only grows: from states that differ only in their logs the
same thing happens, and the same calls are appended (60_exceptions.md R194, R197, R199; 30_encoding.md
R80). Every step that fetches an opcode puts its trace line there when TRACE is on (log 7), a step
that then faults too, and that one nothing else; a step that fetches none puts nothing there
(30_encoding.md R76). The log is the model's own field (log 9), and a fault carries no state (log
11). -/
def Obligations.HostLogIsOnlyAppended : Prop :=
  (∀ (s : State),
    (∀ t, step s = .next t →
      ∃ calls, ∀ log, step { s with hostLog := log } = .next { t with hostLog := log ++ calls }) ∧
    (∀ f, step s = .fault f → ∀ log, step { s with hostLog := log } = .fault f)) ∧
  (∀ (s t : State), step s = .next t → s.hostLogAfterStep = t.hostLog) ∧
  (∀ (s : State), s.run = .running → s.eip.toNat < Config.memSize →
    (∃ calls, s.hostLogAfterStep =
      s.hostLog ++
        (if Config.trace then [.trace (Memory.read s.mem s.eip.toNat) s.eip] else []) ++ calls) ∧
    (∀ f, step s = .fault f → s.hostLogAfterStep =
      s.hostLog ++
        (if Config.trace then [.trace (Memory.read s.mem s.eip.toNat) s.eip] else []))) ∧
  (∀ (s : State), s.run ≠ .running ∨ Config.memSize ≤ s.eip.toNat → s.hostLogAfterStep = s.hostLog)

/-! ## Registers, memory, flags -/

/-- The eight 8-bit views by index, the bits they alias, and the rule's formula (10_state.md R22). -/
def Obligations.ViewsAliasTheirRegisters : Prop :=
  ([0#3, 1#3, 2#3, 3#3, 4#3, 5#3, 6#3, 7#3].map Reg8.ofIndex =
    [Reg8.al, .cl, .dl, .bl, .ah, .ch, .dh, .bh]) ∧
  ∀ g : Regs,
    (∀ i : BitVec 3, g.get8 (Reg8.ofIndex i) =
      if i.toNat < 4 then (g.get (Reg32.ofIndex i)).extractLsb' 0 8
      else (g.get (Reg32.ofIndex (i - 4#3))).extractLsb' 8 8) ∧
    g.get8 .al = (g.get .eax).extractLsb' 0 8 ∧ g.get8 .cl = (g.get .ecx).extractLsb' 0 8 ∧
    g.get8 .dl = (g.get .edx).extractLsb' 0 8 ∧ g.get8 .bl = (g.get .ebx).extractLsb' 0 8 ∧
    g.get8 .ah = (g.get .eax).extractLsb' 8 8 ∧ g.get8 .ch = (g.get .ecx).extractLsb' 8 8 ∧
    g.get8 .dh = (g.get .edx).extractLsb' 8 8 ∧ g.get8 .bh = (g.get .ebx).extractLsb' 8 8

/-- A 32-bit write replaces one register; an 8-bit write replaces eight bits of one register; a read
after a write returns the value written (10_state.md R23). -/
def Obligations.RegisterWritesReplaceOnlyTheirBits : Prop :=
  ∀ g : Regs,
    (∀ (r q : Reg32) (v : Word), (g.set r v).get q = if q = r then v else g.get q) ∧
    (∀ (i : Reg8) (v : Byte),
      (g.set8 i v).get8 i = v ∧
      (g.set8 i v).get (viewReg i) =
        (if viewHigh i then
          (g.get (viewReg i)).extractLsb' 16 16 ++ v ++ (g.get (viewReg i)).extractLsb' 0 8
         else (g.get (viewReg i)).extractLsb' 8 24 ++ v) ∧
      ∀ q, q ≠ viewReg i → (g.set8 i v).get q = g.get q)

/-- A four-byte write is read back whole and byte by byte, lowest byte lowest, and changes nothing
else; a four-byte read is the sum of its bytes' places (20_memory.md R42, R43, R47). -/
def Obligations.MemoryAccessesAreLittleEndian : Prop :=
  (∀ (s : State) (a v : Word), a.toNat + 4 ≤ Config.memSize →
    ∃ t, s.memWrite32 a v = .ok t ∧ t.memRead32 a = .ok v ∧
      (∀ i, i < 4 → t.memRead8 (a + BitVec.ofNat 32 i) = .ok (v.extractLsb' (8 * i) 8)) ∧
      (∀ b, ¬(a.toNat ≤ b ∧ b < a.toNat + 4) → Memory.read t.mem b = Memory.read s.mem b) ∧
      t.regs = s.regs ∧ t.flags = s.flags ∧ t.eip = s.eip ∧ SameRest s t) ∧
  (∀ (s : State) (a v : Word), s.memRead32 a = .ok v →
    v.toNat =
      (Memory.read s.mem a.toNat).toNat + (Memory.read s.mem (a.toNat + 1)).toNat * 2 ^ 8 +
      (Memory.read s.mem (a.toNat + 2)).toNat * 2 ^ 16 +
      (Memory.read s.mem (a.toNat + 3)).toNat * 2 ^ 24)

/-- An access that does not lie wholly below MEM_SIZE faults with its address, width and kind, and
one that does, does not (20_memory.md R44, by D1). -/
def Obligations.AccessesOutsideMemoryFault : Prop :=
  ∀ (s : State) (a v : Word) (b : Byte),
    (s.memRead8 a = .error (.outOfBounds a 1 .read) ↔ Config.memSize < a.toNat + 1) ∧
    (s.memRead32 a = .error (.outOfBounds a 4 .read) ↔ Config.memSize < a.toNat + 4) ∧
    (s.memWrite8 a b = .error (.outOfBounds a 1 .write) ↔ Config.memSize < a.toNat + 1) ∧
    (s.memWrite32 a v = .error (.outOfBounds a 4 .write) ↔ Config.memSize < a.toNat + 4)

/-- Memories in canonical form that read alike at every address are the same data. -/
def Obligations.CanonicalMemoriesThatReadAlikeAreEqual : Prop :=
  ∀ m n : Memory, Memory.wf m → Memory.wf n → (∀ a, Memory.read m a = Memory.read n a) → m = n

/-- The flags of a subtraction (41_arith_compare.md R110). -/
def Obligations.SubtractionFlagsFollowTheRule : Prop :=
  ∀ l r : Word,
    (subFlags l r).cf = decide (l.toNat < r.toNat) ∧
    (subFlags l r).cf = (BitVec.ofInt 33 ((l.toNat : Int) - (r.toNat : Int))).getLsbD 32 ∧
    (subFlags l r).zf = decide (l - r = 0#32) ∧
    (subFlags l r).sf = (l - r).getLsbD 31 ∧
    (subFlags l r).of =
      (decide (l.getLsbD 31 ≠ r.getLsbD 31) && decide (l.getLsbD 31 ≠ (l - r).getLsbD 31)) ∧
    ∀ s : State, s.setFlags (subFlags l r) = { s with flags := subFlags l r }

/-- After a comparison, JL's condition is the signed less, JLE's the signed less-or-equal, OF the
signed overflow and ZF equality (43_control.md R151, R152, which the spec derives from R110). -/
def Obligations.SignedConditionsAfterCompare : Prop :=
  ∀ l r : Word,
    (subFlags l r).less = decide (l.toInt < r.toInt) ∧
    (subFlags l r).lessOrEqual = decide (l.toInt ≤ r.toInt) ∧
    (subFlags l r).of =
      decide (l.toInt - r.toInt < -2147483648 ∨ 2147483647 < l.toInt - r.toInt) ∧
    (subFlags l r).zf = decide (l = r)

/-! ## The move family -/

/-- MOV r8, imm8 and MOV r32, imm32 (40_move.md R100, R101). -/
def Obligations.MovImmediateToRegister : Prop :=
  (∀ (i : Reg8) (v : Byte) (s : State),
    ∃ t, exec (.movR8Imm i v) s = .next t ∧ ViewWritten i v s t ∧ SameMemory s t ∧
      t.flags = s.flags ∧ t.eip = s.eip + 2#32 ∧ SameRest s t) ∧
  (∀ (r : Reg32) (v : Word) (s : State),
    ∃ t, exec (.movR32Imm r v) s = .next t ∧ RegWritten r v s t ∧ SameMemory s t ∧
      t.flags = s.flags ∧ t.eip = s.eip + 5#32 ∧ SameRest s t)

/-- MOV r/m32, imm32 and MOV r/m32, r32, for every form of the destination (40_move.md R102, R106). -/
def Obligations.MovToRegisterOrMemory32 : Prop :=
  (∀ (d : Rm32) (v : Word) (s : State), Rm32Accessible d s →
    ∃ t, exec (.movRm32Imm d v) s = .next t ∧ Rm32Written d v s t ∧
      t.flags = s.flags ∧ t.eip = s.eip + BitVec.ofNat 32 (6 + d.dispLen) ∧ SameRest s t) ∧
  (∀ (d : Rm32) (r : Reg32) (s : State), Rm32Accessible d s →
    ∃ t, exec (.movRm32R32 d r) s = .next t ∧ Rm32Written d (s.reg r) s t ∧
      t.flags = s.flags ∧ t.eip = s.eip + BitVec.ofNat 32 (2 + d.dispLen) ∧ SameRest s t)

/-- MOV r32, r/m32, for every form of the source; the address is that of the state before the write
(40_move.md R104). Then what the address of each memory form is, for every instruction that has an
r/m operand (30_encoding.md R67; modulo 2^32 by D2). -/
def Obligations.MovFromRegisterOrMemory32 : Prop :=
  (∀ (r : Reg32) (x : Rm32) (s : State), Rm32Accessible x s →
    ∃ t, exec (.movR32Rm32 r x) s = .next t ∧ RegWritten r (rm32Value x s) s t ∧ SameMemory s t ∧
      t.flags = s.flags ∧ t.eip = s.eip + BitVec.ofNat 32 (2 + x.dispLen) ∧ SameRest s t) ∧
  (∀ (b : Reg32) (d : Byte) (w : Word) (s : State),
    MemRef.ea (.base b) s = s.reg b ∧
    MemRef.ea (.abs w) s = w ∧
    MemRef.ea (.disp8 b d) s = s.reg b + d.signExtend 32 ∧
    MemRef.ea (.disp32 b w) s = s.reg b + w)

/-- MOV r8, r/m8 and MOV r/m8, r8: one byte moves and the other 24 bits of a register, and the bytes
around a memory operand, stay (40_move.md R103, R105). -/
def Obligations.MovOfBytes : Prop :=
  (∀ (i : Reg8) (x : Rm8) (s : State), Rm8Accessible x s →
    ∃ t, exec (.movR8Rm8 i x) s = .next t ∧ ViewWritten i (rm8Value x s) s t ∧ SameMemory s t ∧
      t.flags = s.flags ∧ t.eip = s.eip + BitVec.ofNat 32 (2 + x.dispLen) ∧ SameRest s t) ∧
  (∀ (d : Rm8) (i : Reg8) (s : State), Rm8Accessible d s →
    ∃ t, exec (.movRm8R8 d i) s = .next t ∧ Rm8Written d (s.reg8 i) s t ∧
      t.flags = s.flags ∧ t.eip = s.eip + BitVec.ofNat 32 (2 + d.dispLen) ∧ SameRest s t)

/-! ## Arithmetic and compare -/

/-- ADD r/m32, r32; ADD r/m32, simm8; INC r32; INC r/m32: the sum modulo 2^32, and no flag changes
(41_arith_compare.md R111, R112, R118, R119; the flags by D7). -/
def Obligations.AddAndIncWrapAndKeepFlags : Prop :=
  (∀ (d : Rm32) (r : Reg32) (s : State), Rm32Accessible d s →
    ∃ t, exec (.addRm32R32 d r) s = .next t ∧ Rm32Written d (rm32Value d s + s.reg r) s t ∧
      t.flags = s.flags ∧ t.eip = s.eip + BitVec.ofNat 32 (2 + d.dispLen) ∧ SameRest s t) ∧
  (∀ (d : Rm32) (v : Byte) (s : State), Rm32Accessible d s →
    ∃ t, exec (.addRm32Imm8 d v) s = .next t ∧
      Rm32Written d (rm32Value d s + v.signExtend 32) s t ∧
      t.flags = s.flags ∧ t.eip = s.eip + BitVec.ofNat 32 (3 + d.dispLen) ∧ SameRest s t) ∧
  (∀ (r : Reg32) (s : State),
    ∃ t, exec (.incR32 r) s = .next t ∧ RegWritten r (s.reg r + 1#32) s t ∧ SameMemory s t ∧
      t.flags = s.flags ∧ t.eip = s.eip + 1#32 ∧ SameRest s t) ∧
  (∀ (d : Rm32) (s : State), Rm32Accessible d s →
    ∃ t, exec (.incRm32 d) s = .next t ∧ Rm32Written d (rm32Value d s + 1#32) s t ∧
      t.flags = s.flags ∧ t.eip = s.eip + BitVec.ofNat 32 (2 + d.dispLen) ∧ SameRest s t)

/-- SUB r/m32, simm8: the difference modulo 2^32 is stored and all four flags come from the old value
and the extended immediate (41_arith_compare.md R113). -/
def Obligations.SubStoresAndSetsFlags : Prop :=
  ∀ (d : Rm32) (v : Byte) (s : State), Rm32Accessible d s →
    ∃ t, exec (.subRm32Imm8 d v) s = .next t ∧
      Rm32Written d (rm32Value d s - v.signExtend 32) s t ∧
      t.flags = subFlags (rm32Value d s) (v.signExtend 32) ∧
      t.eip = s.eip + BitVec.ofNat 32 (3 + d.dispLen) ∧ SameRest s t

/-- CMP r/m32, simm8; CMP r32, r/m32; CMP EAX, imm32: the flags of left minus right, and nothing
stored (41_arith_compare.md R114, R115, R117). -/
def Obligations.CompareSetsOnlyFlags : Prop :=
  (∀ (d : Rm32) (v : Byte) (s : State), Rm32Accessible d s →
    exec (.cmpRm32Imm8 d v) s = .next { s with
      flags := subFlags (rm32Value d s) (v.signExtend 32)
      eip := s.eip + BitVec.ofNat 32 (3 + d.dispLen) }) ∧
  (∀ (r : Reg32) (x : Rm32) (s : State), Rm32Accessible x s →
    exec (.cmpR32Rm32 r x) s = .next { s with
      flags := subFlags (s.reg r) (rm32Value x s)
      eip := s.eip + BitVec.ofNat 32 (2 + x.dispLen) }) ∧
  (∀ (v : Word) (s : State),
    exec (.cmpEaxImm32 v) s = .next { s with
      flags := subFlags (s.reg .eax) v
      eip := s.eip + 5#32 })

/-- CMP AL, imm8: CF is the unsigned less, ZF equality, SF equals CF and OF is clear, because the two
bytes are compared zero-extended to 32 bits (41_arith_compare.md R116, by D9). -/
def Obligations.CompareAlUsesThirtyTwoBitFlags : Prop :=
  ∀ (v : Byte) (s : State),
    exec (.cmpAlImm8 v) s = .next { s with
      flags := ⟨decide ((s.reg8 .al).toNat < v.toNat), decide (s.reg8 .al = v),
                decide ((s.reg8 .al).toNat < v.toNat), false⟩
      eip := s.eip + 2#32 }

/-! ## The stack family -/

/-- PUSH r32, PUSH imm8 and PUSH imm32: four bytes are stored under the old ESP, ESP drops by 4, and
the pushed register is read before ESP moves (42_stack.md R130, R132 to R134; D13). PUSH imm8 widens
by the open PUSH_IMM8_EXT (log 6). -/
def Obligations.PushStoresBelowTheStack : Prop :=
  ∀ (s : State), (s.reg .esp - 4#32).toNat + 4 ≤ Config.memSize →
    (∀ r : Reg32, ∃ t, exec (.pushR32 r) s = .next t ∧
      RegWritten .esp (s.reg .esp - 4#32) s t ∧
      StoredAt (s.reg .esp - 4#32).toNat (leBytes (s.reg r)) s t ∧
      t.flags = s.flags ∧ t.eip = s.eip + 1#32 ∧ SameRest s t) ∧
    (∀ v : Byte, ∃ t w, exec (.pushImm8 v) s = .next t ∧
      (Config.pushImm8Ext = .sign → w = v.signExtend 32) ∧
      (Config.pushImm8Ext = .zero → w = v.zeroExtend 32) ∧
      RegWritten .esp (s.reg .esp - 4#32) s t ∧
      StoredAt (s.reg .esp - 4#32).toNat (leBytes w) s t ∧
      t.flags = s.flags ∧ t.eip = s.eip + 2#32 ∧ SameRest s t) ∧
    (∀ v : Word, ∃ t, exec (.pushImm32 v) s = .next t ∧
      RegWritten .esp (s.reg .esp - 4#32) s t ∧
      StoredAt (s.reg .esp - 4#32).toNat (leBytes v) s t ∧
      t.flags = s.flags ∧ t.eip = s.eip + 5#32 ∧ SameRest s t)

/-- PUSH imm8 pushes the same value under both settings of PUSH_IMM8_EXT when the immediate is below
0x80 (42_stack.md R133). -/
def Obligations.SmallPushImmediatesNeedNoSetting : Prop :=
  ∀ (v : Byte) (s : State), v.toNat < 128 →
    exec (.pushImm8 v) s =
      match exec (.pushImm32 (v.zeroExtend 32)) s with
      | .next t => .next { t with eip := s.eip + 2#32 }
      | .fault f => .fault f
      | .refused r => .refused r

/-- POP r32: the loaded value is in the destination, ESP is 4 up unless it is the destination, and
memory is unchanged (42_stack.md R131, R135; POP ESP by D13). -/
def Obligations.PopLoadsFromTheStack : Prop :=
  ∀ (d : Reg32) (s : State), (s.reg .esp).toNat + 4 ≤ Config.memSize →
    ∃ t, exec (.popR32 d) s = .next t ∧
      (∀ q, t.reg q =
        if q = d then Memory.read32 s.mem (s.reg .esp).toNat
        else if q = .esp then s.reg .esp + 4#32 else s.reg q) ∧
      SameMemory s t ∧ t.flags = s.flags ∧ t.eip = s.eip + 1#32 ∧ SameRest s t

/-- Pushing a register and popping it again leaves every register, ESP included, as it was
(42_stack.md R131). -/
def Obligations.PushThenPopRestoresTheRegisters : Prop :=
  ∀ (r : Reg32) (s : State), (s.reg .esp - 4#32).toNat + 4 ≤ Config.memSize →
    ∃ t u, exec (.pushR32 r) s = .next t ∧ exec (.popR32 r) t = .next u ∧ u.regs = s.regs

/-! ## Control transfer -/

/-- JMP rel8 and JMP rel32: the target is relative to the next instruction, modulo 2^32, and nothing
else changes (43_control.md R140, R141; the modulus by D2). -/
def Obligations.JumpsReachTheirTargets : Prop :=
  (∀ (d : Byte) (s : State),
    exec (.jmpRel8 d) s = .next { s with eip := s.eip + 2#32 + d.signExtend 32 }) ∧
  (∀ (d : Word) (s : State),
    exec (.jmpRel32 d) s = .next { s with eip := s.eip + 5#32 + d })

/-- The ten conditional jumps: the condition of each, the target if it holds, the next instruction if
it does not, and nothing else changed (43_control.md R142 to R152). -/
def Obligations.ConditionalJumpsFollowTheirFlags : Prop :=
  ∀ (d : Byte) (s : State) (i : Instr) (c : Bool),
    (i, c) ∈
      [(Instr.jo d, s.flags.of), (.jno d, !s.flags.of), (.jc d, s.flags.cf), (.jnc d, !s.flags.cf),
       (.jz d, s.flags.zf), (.jnz d, !s.flags.zf), (.js d, s.flags.sf), (.jns d, !s.flags.sf),
       (.jl d, s.flags.sf != s.flags.of), (.jle d, s.flags.zf || s.flags.sf != s.flags.of)] →
    exec i s = .next { s with
      eip := if c then s.eip + 2#32 + d.signExtend 32 else s.eip + 2#32 }

/-- CALL rel32: pushes the address of the next instruction and goes to the target (43_control.md
R153, 42_stack.md R130). -/
def Obligations.CallPushesTheReturnAddress : Prop :=
  ∀ (d : Word) (s : State), (s.reg .esp - 4#32).toNat + 4 ≤ Config.memSize →
    ∃ t, exec (.callRel32 d) s = .next t ∧
      RegWritten .esp (s.reg .esp - 4#32) s t ∧
      StoredAt (s.reg .esp - 4#32).toNat (leBytes (s.eip + 5#32)) s t ∧
      t.flags = s.flags ∧ t.eip = s.eip + 5#32 + d ∧ SameRest s t

/-- RET: goes to the popped address and raises ESP by 4 (43_control.md R154, 42_stack.md R131). -/
def Obligations.ReturnPopsTheTarget : Prop :=
  ∀ (s : State), (s.reg .esp).toNat + 4 ≤ Config.memSize →
    ∃ t, exec .ret s = .next t ∧ t.eip = Memory.read32 s.mem (s.reg .esp).toNat ∧
      RegWritten .esp (s.reg .esp + 4#32) s t ∧ SameMemory s t ∧ t.flags = s.flags ∧ SameRest s t

/-- A CALL and then a RET come back to the instruction after the CALL with every register as it was
(43_control.md R153, R154). -/
def Obligations.ReturnComesBackFromCall : Prop :=
  ∀ (d : Word) (s : State), (s.reg .esp - 4#32).toNat + 4 ≤ Config.memSize →
    ∃ t u, exec (.callRel32 d) s = .next t ∧ exec .ret t = .next u ∧
      u.eip = s.eip + 5#32 ∧ u.regs = s.regs

/-- LEAVE: ESP is the old EBP plus 4, EBP is what was stored at the old EBP, whatever ESP was
(43_control.md R155). -/
def Obligations.LeaveTearsDownTheFrame : Prop :=
  ∀ (s : State), (s.reg .ebp).toNat + 4 ≤ Config.memSize →
    ∃ t, exec .leave s = .next t ∧
      t.reg .esp = s.reg .ebp + 4#32 ∧ t.reg .ebp = Memory.read32 s.mem (s.reg .ebp).toNat ∧
      (∀ q, q ≠ Reg32.esp → q ≠ Reg32.ebp → t.reg q = s.reg q) ∧
      SameMemory s t ∧ t.flags = s.flags ∧ t.eip = s.eip + 1#32 ∧ SameRest s t

/-! ## Port I/O and the software interrupt -/

/-- IN AL, DX: the console port gives the next byte of the host's draw, every other port 0; only AL,
`eip` and the observations change (44_io_interrupt.md R170, 60_exceptions.md R193). The byte is a free
value (log 8), and the two bookkeeping fields are the model's own (log 9, log 10). -/
def Obligations.InReadsThePort : Prop :=
  ∀ (s : State),
    ∃ t v, exec .inAlDx s = .next t ∧
      v = (if (s.reg .edx).extractLsb' 0 16 = 0x3F8#16 then Config.consoleByte s.consoleReads
           else 0#8) ∧
      ViewWritten .al v s t ∧ SameMemory s t ∧ t.flags = s.flags ∧ t.eip = s.eip + 1#32 ∧
      t.run = s.run ∧ t.hostLog = s.hostLog ++ [.portRead ((s.reg .edx).extractLsb' 0 16) v] ∧
      t.consoleReads =
        (if (s.reg .edx).extractLsb' 0 16 = 0x3F8#16 then s.consoleReads + 1 else s.consoleReads)

/-- OUT DX, AL: the byte goes to the port, a byte for the console port to the output stream, and of
the CORE's state only `eip` changes (44_io_interrupt.md R171, 60_exceptions.md R194). -/
def Obligations.OutWritesThePort : Prop :=
  ∀ (s : State),
    ∃ t, exec .outDxAl s = .next t ∧
      t = { s with
            eip := s.eip + 1#32
            hostLog := s.hostLog ++ [.portWrite ((s.reg .edx).extractLsb' 0 16) (s.reg8 .al)] } ∧
      t.outputStream =
        s.outputStream ++
          (if (s.reg .edx).extractLsb' 0 16 = 0x3F8#16 then [s.reg8 .al] else [])

/-- INT imm8: vector 0x10 hands AH, AL and the low four bits of EBX to the BIOS video service, any
other vector is reported, and of the CORE's state only `eip` changes: no trap is taken
(44_io_interrupt.md R172 to R174, 60_exceptions.md R185, R188; BL by D25, no write by D17). A video
call with AH = 0x0E puts its character, styled by the three colour bits and the brightness bit, on
the output stream, in bytes the spec leaves open (log 9); any other AH puts nothing there and is
reported as not implemented (R195). -/
def Obligations.IntCallsAServiceAndTakesNoTrap : Prop :=
  (∀ (vec : Byte) (s : State),
    exec (.intImm8 vec) s = .next { s with
      eip := s.eip + 2#32
      hostLog := s.hostLog ++
        [if vec = 0x10#8 then
           .biosVideo ((s.reg .eax).extractLsb' 8 8) ((s.reg .eax).extractLsb' 0 8)
             ((s.reg .ebx).extractLsb' 0 4)
         else .unknownInterrupt vec] }) ∧
  (∀ (vec : Byte) (s : State),
    ∃ t, exec (.intImm8 vec) s = .next t ∧
      t.outputStream =
        s.outputStream ++
          (if vec = 0x10#8 ∧ (s.reg .eax).extractLsb' 8 8 = 0x0E#8 then
             Config.teletypeBytes ((s.reg .eax).extractLsb' 0 8) ((s.reg .ebx).extractLsb' 0 3)
               ((s.reg .ebx).getLsbD 3)
           else [])) ∧
  (∀ (ah al : Byte) (color : BitVec 4),
    diagnosticOf (.biosVideo ah al color) =
      if ah = 0x0E#8 then none else some (.videoNotImplemented ah))

/-- An unknown vector leaves all of the CORE's state but `eip` unchanged, moves past the two bytes
and is reported with its number (44_io_interrupt.md R174). Where the report is kept, and the console
count, are the model's own (log 9, log 10). -/
def Obligations.UnknownVectorsAreReportedAndIgnored : Prop :=
  ∀ (vec : Byte) (s : State), vec ≠ 0x10#8 →
    ∃ t, exec (.intImm8 vec) s = .next t ∧ t.eip = s.eip + 2#32 ∧
      t.regs = s.regs ∧ t.flags = s.flags ∧ t.mem = s.mem ∧ t.run = s.run ∧
      t.consoleReads = s.consoleReads ∧
      t.hostLog = s.hostLog ++ [.unknownInterrupt vec] ∧
      diagnosticOf (.unknownInterrupt vec) = some (.unknownInterrupt vec)

/-! ## Faults of the instructions -/

/-- A memory operand that does not lie in memory faults: on its read for the forms that read it, on
its write for the forms that only write it (60_exceptions.md R184, R186; 20_memory.md R44, D1). -/
def Obligations.OperandsOutsideMemoryFault : Prop :=
  ∀ (m : MemRef) (s : State),
    (Config.memSize < (MemRef.ea m s).toNat + 4 → ∀ (r : Reg32) (v : Byte) (w : Word),
      (∀ i ∈ [Instr.addRm32R32 (.mem m) r, .addRm32Imm8 (.mem m) v, .subRm32Imm8 (.mem m) v,
          .cmpRm32Imm8 (.mem m) v, .cmpR32Rm32 r (.mem m), .incRm32 (.mem m),
          .movR32Rm32 r (.mem m)],
        exec i s = .fault (.outOfBounds (MemRef.ea m s) 4 .read)) ∧
      (∀ i ∈ [Instr.movRm32R32 (.mem m) r, .movRm32Imm (.mem m) w],
        exec i s = .fault (.outOfBounds (MemRef.ea m s) 4 .write))) ∧
    (Config.memSize < (MemRef.ea m s).toNat + 1 → ∀ (r : Reg8),
      exec (.movR8Rm8 r (.mem m)) s = .fault (.outOfBounds (MemRef.ea m s) 1 .read) ∧
      exec (.movRm8R8 (.mem m) r) s = .fault (.outOfBounds (MemRef.ea m s) 1 .write))

/-- A push whose slot is not in memory, the wrap below address 0 included, faults on the write; a pop
whose slot is not in memory faults on the read (42_stack.md R130 to R135, 43_control.md R153 to R155;
D1, D2). -/
def Obligations.StackAccessesOutsideMemoryFault : Prop :=
  ∀ (s : State),
    (Config.memSize < (s.reg .esp - 4#32).toNat + 4 → ∀ (r : Reg32) (v : Byte) (w : Word),
      ∀ i ∈ [Instr.pushR32 r, .pushImm8 v, .pushImm32 w, .callRel32 w],
        exec i s = .fault (.outOfBounds (s.reg .esp - 4#32) 4 .write)) ∧
    ((s.reg .esp).toNat < 4 → Config.memSize < (s.reg .esp - 4#32).toNat + 4) ∧
    (Config.memSize < (s.reg .esp).toNat + 4 → ∀ (r : Reg32),
      ∀ i ∈ [Instr.popR32 r, .ret],
        exec i s = .fault (.outOfBounds (s.reg .esp) 4 .read)) ∧
    (Config.memSize < (s.reg .ebp).toNat + 4 →
      exec .leave s = .fault (.outOfBounds (s.reg .ebp) 4 .read))

/-- No instruction is refused, and the only fault a meaning raises is a data access past the end of
memory: INT, IN and OUT, jumps and register forms never fault (60_exceptions.md R181, R186, R190). -/
def Obligations.MeaningsFaultOnlyOnDataBounds : Prop :=
  ∀ (i : Instr) (s : State),
    (∀ r, exec i s ≠ .refused r) ∧
    (∀ f, exec i s = .fault f →
      ∃ a n kind, f = .outOfBounds a n kind ∧ kind ≠ .fetch ∧ Config.memSize < a.toNat + n)

/-! ## Whole-machine frames -/

/-- Only SUB and the four CMP forms write the flags (10_state.md R28; for ADD and INC by D7). -/
def Obligations.OnlySubAndCmpWriteFlags : Prop :=
  ∀ (i : Instr) (s t : State), exec i s = .next t → writesFlags i = false → t.flags = s.flags

/-- Only the ten conditional jumps read the flags: any other instruction does the same from states
that differ only in their flags (10_state.md R29). -/
def Obligations.OnlyConditionalJumpsReadFlags : Prop :=
  ∀ (i : Instr) (s : State) (f : Flags), readsFlags i = false →
    (∀ t, exec i s = .next t →
      exec i { s with flags := f } =
        .next { t with flags := if writesFlags i then t.flags else f }) ∧
    (∀ e, exec i s = .fault e → exec i { s with flags := f } = .fault e)

/-- Every register an instruction does not have as its destination, or its rule does not also
update, is unchanged (10_state.md R21, R23). -/
def Obligations.OtherRegistersAreUnchanged : Prop :=
  ∀ (i : Instr) (s t : State) (r : Reg32),
    exec i s = .next t → r ∉ destRegs i → t.reg r = s.reg r

/-- Every byte of memory outside the bytes an instruction stores to is unchanged; the address is the
effective address of the destination, or the stack slot, in the state before (20_memory.md R43, R49). -/
def Obligations.OtherBytesAreUnchanged : Prop :=
  ∀ (i : Instr) (s t : State), exec i s = .next t →
    match storeOf i s with
    | none => ∀ b, Memory.read t.mem b = Memory.read s.mem b
    | some (a, n) =>
      a.toNat + n ≤ Config.memSize ∧
      ∀ b, ¬(a.toNat ≤ b ∧ b < a.toNat + n) → Memory.read t.mem b = Memory.read s.mem b

/-- Every instruction but a control transfer moves `eip` past its own bytes, and its length is that of
its encoding: opcode, ModRM byte, displacement and immediate (30_encoding.md R77, R83). -/
def Obligations.OtherInstructionsAdvanceByTheirLength : Prop :=
  (∀ (i : Instr) (s t : State), exec i s = .next t → isTransfer i = false →
    t.eip = s.eip + BitVec.ofNat 32 i.length) ∧
  (∀ i : Instr, i.length = (encode i).length) ∧
  (∀ (reg : BitVec 3) (d : Rm32), (d.encode reg).length = 1 + d.dispLen) ∧
  (∀ (reg : BitVec 3) (d : Rm8), (d.encode reg).length = 1 + d.dispLen)

/-- Only IN, OUT and INT call a collaborator, and no meaning changes the run state
(60_exceptions.md R192; 30_encoding.md R76). -/
def Obligations.OnlyIoInstructionsCallTheHost : Prop :=
  ∀ (i : Instr) (s t : State), exec i s = .next t →
    t.run = s.run ∧
    (i ≠ .inAlDx → t.consoleReads = s.consoleReads) ∧
    (i ≠ .inAlDx → i ≠ .outDxAl → (∀ v, i ≠ .intImm8 v) → t.hostLog = s.hostLog)

/-! ## Ends of a run -/

/-- The fault codes (60_exceptions.md R181, numbered by D18), the clean ends (R203, D28), and that a
dump is reported after each clean end (R198), in the fixed register order with EIP and the flags word
of 10_state.md R30 (D22). That there is none while the run goes on is R198's "after halting"; that
there is none beside the run values of the two faults, where R198 promises nothing, is the model's
choice (log 11): no step answers such a state. -/
def Obligations.EndsOfARun : Prop :=
  (∀ op, (RunState.haltedUnimplemented (.opcode op)).faultCode = some 1) ∧
  (∀ op mod reg rm,
    (Fault.unimplementedAddressingForm op mod reg rm).runState.faultCode = some 2) ∧
  (∀ a n kind, (Fault.outOfBounds a n kind).runState.faultCode = some 3) ∧
  (∀ s : State, s.dump.isSome = s.run.cleanEnd) ∧
  (∀ (s : State) (d : Dump), s.dump = some d →
    d.regs =
      [(.eax, s.reg .eax), (.ecx, s.reg .ecx), (.edx, s.reg .edx), (.ebx, s.reg .ebx),
       (.esp, s.reg .esp), (.ebp, s.reg .ebp), (.esi, s.reg .esi), (.edi, s.reg .edi)] ∧
    d.eip = s.eip ∧
    ∀ k, d.flags.getLsbD k =
      if k = 0 then s.flags.cf else if k = 6 then s.flags.zf else if k = 7 then s.flags.sf
      else if k = 11 then s.flags.of else false)
end

