-- ==== Sys2Proof/Laws/Decode.lean ====
section
/-! SUPPORT. The fields of an encoding, taken apart and put together again. -/

namespace Sys2Proof

@[simp] theorem Reg32.ofIndex_index (r : Reg32) : Reg32.ofIndex r.index = r := by cases r <;> rfl

@[simp] theorem Reg8.ofIndex_index (r : Reg8) : Reg8.ofIndex r.index = r := by cases r <;> rfl

@[simp] theorem Reg32.index_ofIndex (i : BitVec 3) : (Reg32.ofIndex i).index = i := by
  revert i; decide

@[simp] theorem Reg8.index_ofIndex (i : BitVec 3) : (Reg8.ofIndex i).index = i := by
  revert i; decide

@[simp] theorem modField_modRMByte (mod : BitVec 2) (reg rm : BitVec 3) :
    modField (modRMByte mod reg rm) = mod := by
  revert mod reg rm; decide

@[simp] theorem regField_modRMByte (mod : BitVec 2) (reg rm : BitVec 3) :
    regField (modRMByte mod reg rm) = reg := by
  revert mod reg rm; decide

@[simp] theorem rmField_modRMByte (mod : BitVec 2) (reg rm : BitVec 3) :
    rmField (modRMByte mod reg rm) = rm := by
  revert mod reg rm; decide

/-- A ModRM byte is the byte of its three fields (30_encoding.md R63). -/
theorem modRMByte_fields (b : Byte) : modRMByte (modField b) (regField b) (rmField b) = b := by
  apply BitVec.eq_of_getLsbD_eq
  intro k hk
  simp only [modRMByte, modField, regField, rmField, BitVec.getLsbD_append,
    BitVec.getLsbD_extractLsb']
  by_cases h0 : k < 3
  · simp [h0]
  · by_cases h1 : k < 6
    · simp [h0, show k - 3 < 3 by omega, show 3 + (k - 3) = k by omega]
    · simp [h0, show ¬(k - 3 < 3) by omega, show k - 3 - 3 < 2 by omega,
        show 6 + (k - 3 - 3) = k by omega]

/-- The bytes of a little-endian composition (20_memory.md R47). -/
theorem byteOf_le32 (b0 b1 b2 b3 : Byte) :
    byteOf (le32 b0 b1 b2 b3) 0 = b0 ∧ byteOf (le32 b0 b1 b2 b3) 1 = b1 ∧
    byteOf (le32 b0 b1 b2 b3) 2 = b2 ∧ byteOf (le32 b0 b1 b2 b3) 3 = b3 := by
  refine ⟨?_, ?_, ?_, ?_⟩ <;>
  · apply BitVec.eq_of_getLsbD_eq
    intro k hk
    simp only [byteOf, le32, BitVec.getLsbD_extractLsb', BitVec.getLsbD_append, hk, decide_true,
      Bool.true_and]
    simp [hk, show 8 + k - 8 = k by omega, show ¬(8 * 2 + k < 8) by omega,
      show ¬(8 * 3 + k < 8) by omega, show ¬(8 * 2 + k - 8 < 8) by omega,
      show ¬(8 * 3 + k - 8 < 8) by omega, show ¬(8 * 3 + k - 8 - 8 < 8) by omega,
      show 8 * 2 + k - 8 - 8 = k by omega, show 8 * 3 + k - 8 - 8 - 8 = k by omega,
      show ¬(8 + k < 8) by omega]

@[simp] theorem leBytes_le32 (b0 b1 b2 b3 : Byte) : leBytes (le32 b0 b1 b2 b3) = [b0, b1, b2, b3] := by
  obtain ⟨h0, h1, h2, h3⟩ := byteOf_le32 b0 b1 b2 b3
  simp [leBytes, h0, h1, h2, h3]

/-- A word is the little-endian composition of its bytes (20_memory.md R42, R43). -/
@[simp] theorem le32_byteOf (w : Word) :
    le32 (byteOf w 0) (byteOf w 1) (byteOf w 2) (byteOf w 3) = w := by
  apply BitVec.eq_of_getLsbD_eq
  intro k hk
  simp only [le32, byteOf, BitVec.getLsbD_append, BitVec.getLsbD_extractLsb']
  by_cases h0 : k < 8
  · simp [h0]
  by_cases h1 : k < 16
  · simp [h0, show k - 8 < 8 by omega, show 8 + (k - 8) = k by omega]
  by_cases h2 : k < 24
  · simp [h0, show ¬(k - 8 < 8) by omega, show k - 8 - 8 < 8 by omega,
      show 16 + (k - 8 - 8) = k by omega]
  · simp [h0, show ¬(k - 8 < 8) by omega, show ¬(k - 8 - 8 < 8) by omega,
      show k - 8 - 8 - 8 < 8 by omega, show 24 + (k - 8 - 8 - 8) = k by omega]

@[simp] theorem leBytes_length (w : Word) : (leBytes w).length = 4 := rfl

/-- The value of a composition as a number: the sum of 20_memory.md R42. -/
theorem le32_toNat (b0 b1 b2 b3 : Byte) :
    (le32 b0 b1 b2 b3).toNat =
      b0.toNat + b1.toNat * 2 ^ 8 + b2.toNat * 2 ^ 16 + b3.toNat * 2 ^ 24 := by
  have h0 := b0.isLt; have h1 := b1.isLt; have h2 := b2.isLt; have h3 := b3.isLt
  have glue : ∀ x y : Nat, y < 2 ^ 8 → x * 2 ^ 8 ||| y = x * 2 ^ 8 + y := fun x y hy => by
    rw [Nat.mul_comm, Nat.two_pow_add_eq_or_of_lt hy]
  simp only [le32, BitVec.toNat_append, Nat.shiftLeft_eq]
  rw [glue _ _ h2, glue _ _ h1, glue _ _ h0]
  omega

/-- Every byte of a +r form is its pattern with the register's index (30_encoding.md R69). -/
@[simp] theorem rmField_opPlusReg (i : BitVec 3) :
    rmField (opPlusReg 0x40#8 i) = i ∧ rmField (opPlusReg 0x50#8 i) = i ∧
    rmField (opPlusReg 0x58#8 i) = i ∧ rmField (opPlusReg 0xB0#8 i) = i ∧
    rmField (opPlusReg 0xB8#8 i) = i := by
  revert i; decide

/-! ## Reading code bytes -/

@[simp] theorem code8_cons {α : Type} (off : Nat) (b : Byte) (bs : List Byte)
    (k : Byte → List Byte → Except Reject α) : code8 off (b :: bs) k = k b bs := rfl

@[simp] theorem code8_nil {α : Type} (off : Nat) (k : Byte → List Byte → Except Reject α) :
    code8 off [] k = .error (.truncated off 1) := rfl

@[simp] theorem code32_cons {α : Type} (off : Nat) (b0 b1 b2 b3 : Byte) (bs : List Byte)
    (k : Word → List Byte → Except Reject α) :
    code32 off (b0 :: b1 :: b2 :: b3 :: bs) k = k (le32 b0 b1 b2 b3) bs := rfl

/-- The four bytes of a word are read as that word. -/
@[simp] theorem code32_leBytes {α : Type} (off : Nat) (w : Word) (bs : List Byte)
    (k : Word → List Byte → Except Reject α) : code32 off (leBytes w ++ bs) k = k w bs := by
  show k (le32 (byteOf w 0) (byteOf w 1) (byteOf w 2) (byteOf w 3)) bs = k w bs
  rw [le32_byteOf]

/-- Reading one byte succeeds on a byte that is there and what follows accepts. -/
theorem code8_ok {α : Type} {off : Nat} {bs : List Byte} {k : Byte → List Byte → Except Reject α}
    {x : α} (h : code8 off bs k = .ok x) : ∃ b rest, bs = b :: rest ∧ k b rest = .ok x := by
  cases bs with
  | nil => simp at h
  | cons b rest => exact ⟨b, rest, rfl, h⟩

/-- Reading four bytes succeeds on four bytes that are there and what follows accepts. -/
theorem code32_ok {α : Type} {off : Nat} {bs : List Byte} {k : Word → List Byte → Except Reject α}
    {x : α} (h : code32 off bs k = .ok x) : ∃ w rest, bs = leBytes w ++ rest ∧ k w rest = .ok x := by
  match bs, h with
  | b0 :: b1 :: b2 :: b3 :: rest, h => exact ⟨le32 b0 b1 b2 b3, rest, by simp, h⟩
  | [], h => simp [code32] at h
  | [_], h => simp [code32] at h
  | [_, _], h => simp [code32] at h
  | [_, _, _], h => simp [code32] at h

/-- Where reading one byte is refused: no byte is there, or what follows refuses. -/
theorem code8_error {α : Type} {off : Nat} {bs : List Byte} {k : Byte → List Byte → Except Reject α}
    {e : Reject} (h : code8 off bs k = .error e) :
    (bs = [] ∧ e = .truncated off 1) ∨ ∃ b rest, bs = b :: rest ∧ k b rest = .error e := by
  cases bs with
  | nil => simp at h; exact .inl ⟨rfl, h.symm⟩
  | cons b rest => exact .inr ⟨b, rest, rfl, h⟩

/-- Where reading four bytes is refused: fewer are there, or what follows refuses. -/
theorem code32_error {α : Type} {off : Nat} {bs : List Byte}
    {k : Word → List Byte → Except Reject α} {e : Reject} (h : code32 off bs k = .error e) :
    (bs.length < 4 ∧ e = .truncated off 4) ∨
      ∃ w rest, bs = leBytes w ++ rest ∧ k w rest = .error e := by
  match bs, h with
  | b0 :: b1 :: b2 :: b3 :: rest, h => exact .inr ⟨le32 b0 b1 b2 b3, rest, by simp, h⟩
  | [], h => simp [code32] at h; exact .inl ⟨by simp, h.symm⟩
  | [_], h => simp [code32] at h; exact .inl ⟨by simp, h.symm⟩
  | [_, _], h => simp [code32] at h; exact .inl ⟨by simp, h.symm⟩
  | [_, _, _], h => simp [code32] at h; exact .inl ⟨by simp, h.symm⟩

/-- The memory operand a well-formed descriptor's bytes are decoded to. -/
theorem decodeModRM_mem {α : Type} (op : Byte) (reg : BitVec 3) (m : MemRef) (bs : List Byte)
    (k : ModRM → Nat → List Byte → Except Reject α) (h : m.wf) :
    ∃ mod rm, decodeModRM op (m.encode reg ++ bs) k =
      k ⟨mod, reg, rm, some m⟩ (2 + m.dispLen) bs := by
  cases m with
  | base b =>
    refine ⟨0, b.index, ?_⟩
    cases b <;> simp_all [MemRef.wf, MemRef.encode, MemRef.dispLen, decodeModRM, Reg32.index] <;> rfl
  | abs d =>
    refine ⟨0, 5, ?_⟩
    simp [MemRef.encode, decodeModRM, MemRef.dispLen]
  | disp8 b d =>
    refine ⟨1, b.index, ?_⟩
    cases b <;> simp_all [MemRef.wf, MemRef.encode, MemRef.dispLen, decodeModRM, Reg32.index] <;> rfl
  | disp32 b d =>
    refine ⟨2, b.index, ?_⟩
    cases b <;> simp_all [MemRef.wf, MemRef.encode, MemRef.dispLen, decodeModRM, Reg32.index] <;> rfl

/-- A 32-bit r/m operand's bytes are decoded to a descriptor that names it. -/
theorem decodeModRM_rm32 {α : Type} (op : Byte) (reg : BitVec 3) (d : Rm32) (bs : List Byte)
    (k : ModRM → Nat → List Byte → Except Reject α) (h : d.wf) :
    ∃ md : ModRM, md.reg = reg ∧ md.rm32 = d ∧
      decodeModRM op (d.encode reg ++ bs) k = k md (2 + d.dispLen) bs := by
  cases d with
  | reg r =>
    exact ⟨⟨3#2, reg, r.index, none⟩, rfl, by simp [ModRM.rm32],
      by simp [Rm32.encode, decodeModRM, Rm32.dispLen]⟩
  | mem m =>
    obtain ⟨mod, rm, h⟩ := decodeModRM_mem op reg m bs k h
    exact ⟨_, rfl, rfl, h⟩

/-- An 8-bit r/m operand's bytes are decoded to a descriptor that names it. -/
theorem decodeModRM_rm8 {α : Type} (op : Byte) (reg : BitVec 3) (d : Rm8) (bs : List Byte)
    (k : ModRM → Nat → List Byte → Except Reject α) (h : d.wf) :
    ∃ md : ModRM, md.reg = reg ∧ md.rm8 = d ∧
      decodeModRM op (d.encode reg ++ bs) k = k md (2 + d.dispLen) bs := by
  cases d with
  | reg r =>
    exact ⟨⟨3#2, reg, r.index, none⟩, rfl, by simp [ModRM.rm8],
      by simp [Rm8.encode, decodeModRM, Rm8.dispLen]⟩
  | mem m =>
    obtain ⟨mod, rm, h⟩ := decodeModRM_mem op reg m bs k h
    exact ⟨_, rfl, rfl, h⟩

/-- What the decoder does with a descriptor's bytes, said once: an accepted descriptor is a
well-formed operand's encoding and what follows accepts (30_encoding.md R65). -/
theorem decodeModRM_ok {α : Type} {op : Byte} {bs : List Byte}
    {k : ModRM → Nat → List Byte → Except Reject α} {x : α} (h : decodeModRM op bs k = .ok x) :
    ∃ (md : ModRM) (rest : List Byte),
      md.rm32.wf = true ∧ md.rm8.wf = true ∧
      bs = md.rm32.encode md.reg ++ rest ∧ bs = md.rm8.encode md.reg ++ rest ∧
      k md (2 + md.rm32.dispLen) rest = .ok x := by
  unfold decodeModRM at h
  obtain ⟨b, bs, rfl, h'⟩ := code8_ok h
  clear h
  rename' h' => h
  have hb := modRMByte_fields b
  dsimp only at h
  split at h
  · next hm =>
    refine ⟨_, bs, ?_, ?_, ?_, ?_, h⟩ <;>
      simp [ModRM.rm32, ModRM.rm8, Rm32.wf, Rm8.wf, Rm32.encode, Rm8.encode]
    all_goals rw [← hm, hb]
  split at h
  · obtain ⟨_, _, _, h⟩ := code8_ok h
    simp at h
  next h4 =>
  split at h
  · next hm =>
    split at h
    · next h5 =>
      obtain ⟨d, rest, rfl, h⟩ := code32_ok h
      refine ⟨_, rest, ?_, ?_, ?_, ?_, h⟩ <;>
        simp [ModRM.rm32, ModRM.rm8, Rm32.wf, Rm8.wf, MemRef.wf, Rm32.encode, Rm8.encode,
          MemRef.encode]
      all_goals rw [← hm, ← h5, hb]
    · next h5 =>
      have hne : ∀ i : BitVec 3, i ≠ 4#3 → i ≠ 5#3 →
          (MemRef.base (Reg32.ofIndex i)).wf = true := by decide
      refine ⟨_, bs, ?_, ?_, ?_, ?_, h⟩
      · exact hne _ h4 h5
      · exact hne _ h4 h5
      all_goals
        simp [ModRM.rm32, ModRM.rm8, Rm32.encode, Rm8.encode, MemRef.encode]
        rw [← hm, hb]
  have hne : ∀ i : BitVec 3, i ≠ 4#3 → (Reg32.ofIndex i != Reg32.esp) = true := by decide
  split at h
  · next hm =>
    obtain ⟨d, rest, rfl, h⟩ := code8_ok h
    refine ⟨_, rest, ?_, ?_, ?_, ?_, h⟩
    · exact hne _ h4
    · exact hne _ h4
    all_goals
      simp [ModRM.rm32, ModRM.rm8, Rm32.encode, Rm8.encode, MemRef.encode]
      rw [← hm, hb]
  · next h3 h0 h1 =>
    have hm : ∀ i : BitVec 2, i ≠ 3#2 → i ≠ 0#2 → i ≠ 1#2 → i = 2#2 := by decide
    obtain ⟨d, rest, rfl, h⟩ := code32_ok h
    refine ⟨_, rest, ?_, ?_, ?_, ?_, h⟩
    · exact hne _ h4
    · exact hne _ h4
    all_goals
      simp [ModRM.rm32, ModRM.rm8, Rm32.encode, Rm8.encode, MemRef.encode]
      rw [← hm _ h3 h0 h1, hb]

/-- Where decoding a descriptor runs out of bytes: in the descriptor, or in what follows it. Offsets
count from the opcode, so `bs` starts at offset 1. -/
theorem decodeModRM_truncated {α : Type} {op : Byte} {bs : List Byte}
    {k : ModRM → Nat → List Byte → Except Reject α} {off n : Nat}
    (h : decodeModRM op bs k = .error (.truncated off n)) :
    (bs.length + 1 < off + n ∧ off + n ≤ 6) ∨
    ∃ md q rest, k md q rest = .error (.truncated off n) ∧ q ≤ 6 ∧ bs.length + 1 = q + rest.length := by
  unfold decodeModRM at h
  rcases code8_error h with ⟨rfl, he⟩ | ⟨b, bs, rfl, h'⟩
  · simp only [Reject.truncated.injEq] at he; left; simp only [List.length_nil]; omega
  clear h
  rename' h' => h
  dsimp only at h
  have q2 (r : List Byte) : (b :: r).length + 1 = 2 + r.length := by simp only [List.length_cons]; omega
  split at h
  · exact .inr ⟨_, 2, bs, h, by omega, q2 bs⟩
  split at h
  · rcases code8_error h with ⟨rfl, he⟩ | ⟨_, _, _, hk⟩
    · simp only [Reject.truncated.injEq] at he; left; rw [q2]; simp only [List.length_nil]; omega
    · simp at hk
  split at h
  · split at h
    · rcases code32_error h with ⟨hl, he⟩ | ⟨w, rest, rfl, hk⟩
      · simp only [Reject.truncated.injEq] at he; left; rw [q2]; omega
      · exact .inr ⟨_, 6, rest, hk, by omega, by rw [q2]; simp; omega⟩
    · exact .inr ⟨_, 2, bs, h, by omega, q2 bs⟩
  split at h
  · rcases code8_error h with ⟨rfl, he⟩ | ⟨d, rest, rfl, hk⟩
    · simp only [Reject.truncated.injEq] at he; left; rw [q2]; simp only [List.length_nil]; omega
    · exact .inr ⟨_, 3, rest, hk, by omega, by rw [q2]; simp; omega⟩
  · rcases code32_error h with ⟨hl, he⟩ | ⟨w, rest, rfl, hk⟩
    · simp only [Reject.truncated.injEq] at he; left; rw [q2]; omega
    · exact .inr ⟨_, 6, rest, hk, by omega, by rw [q2]; simp; omega⟩

/-! ## The dispatch table -/

/-- Bytes whose opcode has a handler are the handler's (30_encoding.md R76). -/
theorem decode_of_handler {op : Byte} {h : Handler} (hh : handlerOf op = some h)
    (bs : List Byte) : decode (op :: bs) = decodeHandler h op bs := by
  simp [decode, hh]

/-- Bytes whose opcode has none are refused (30_encoding.md R75). -/
theorem decode_of_sentinel {op : Byte} (hh : handlerOf op = none) (bs : List Byte) :
    decode (op :: bs) = .error (.unimplementedOpcode op) := by
  simp [decode, hh]

/-- The +r rows: every register's opcode has the row's handler (30_encoding.md R69, R72). -/
theorem handlerOf_opPlusReg (i : BitVec 3) :
    handlerOf (opPlusReg 0x40#8 i) = some .incR32 ∧ handlerOf (opPlusReg 0x50#8 i) = some .pushR32 ∧
    handlerOf (opPlusReg 0x58#8 i) = some .popR32 ∧ handlerOf (opPlusReg 0xB0#8 i) = some .movR8Imm ∧
    handlerOf (opPlusReg 0xB8#8 i) = some .movR32Imm := by
  revert i; decide

/-- The opcode byte a handler's form is encoded with, from the byte it was found at (a +r form keeps
its register). -/
def opcodeOf : Handler → Byte → Byte
  | .addRm32R32, _ => 0x01#8 | .cmpR32Rm32, _ => 0x3B#8 | .cmpAlImm8, _ => 0x3C#8
  | .cmpEaxImm32, _ => 0x3D#8 | .incR32, op => opPlusReg 0x40#8 (rmField op)
  | .pushR32, op => opPlusReg 0x50#8 (rmField op) | .popR32, op => opPlusReg 0x58#8 (rmField op)
  | .pushImm32, _ => 0x68#8 | .pushImm8, _ => 0x6A#8 | .jo, _ => 0x70#8 | .jno, _ => 0x71#8
  | .jc, _ => 0x72#8 | .jnc, _ => 0x73#8 | .jz, _ => 0x74#8 | .jnz, _ => 0x75#8 | .js, _ => 0x78#8
  | .jns, _ => 0x79#8 | .jl, _ => 0x7C#8 | .jle, _ => 0x7E#8 | .group83, _ => 0x83#8
  | .movRm8R8, _ => 0x88#8 | .movRm32R32, _ => 0x89#8 | .movR8Rm8, _ => 0x8A#8
  | .movR32Rm32, _ => 0x8B#8 | .movR8Imm, op => opPlusReg 0xB0#8 (rmField op)
  | .movR32Imm, op => opPlusReg 0xB8#8 (rmField op) | .ret, _ => 0xC3#8 | .movRm32Imm, _ => 0xC7#8
  | .leave, _ => 0xC9#8 | .intImm8, _ => 0xCD#8 | .callRel32, _ => 0xE8#8 | .jmpRel32, _ => 0xE9#8
  | .jmpRel8, _ => 0xEB#8 | .inAlDx, _ => 0xEC#8 | .outDxAl, _ => 0xEE#8 | .groupFF, _ => 0xFF#8

/-- Which byte an opcode with a handler is (30_encoding.md R72). -/
theorem opcodeOf_handlerOf (op : Byte) (h : Handler) (hh : handlerOf op = some h) :
    op = opcodeOf h op := by
  have : ∀ op : Byte, ∀ h ∈ handlerOf op, op = opcodeOf h op := by decide +kernel
  exact this op h hh

/-- Decoding a descriptor never reports an unregistered opcode, unless what follows does. -/
theorem decodeModRM_ne_opcode {α : Type} {op x : Byte} {bs : List Byte}
    {k : ModRM → Nat → List Byte → Except Reject α}
    (hk : ∀ d q r, k d q r ≠ .error (.unimplementedOpcode x)) :
    decodeModRM op bs k ≠ .error (.unimplementedOpcode x) := by
  intro h
  unfold decodeModRM at h
  rcases code8_error h with ⟨_, he⟩ | ⟨b, bs, _, h'⟩
  · exact nomatch he
  clear h
  dsimp only at h'
  split at h'
  · exact hk _ _ _ h'
  split at h'
  · rcases code8_error h' with ⟨_, he⟩ | ⟨_, _, _, he⟩ <;> exact nomatch he
  split at h'
  · split at h'
    · rcases code32_error h' with ⟨_, he⟩ | ⟨_, _, _, h'⟩
      · exact nomatch he
      · exact hk _ _ _ h'
    · exact hk _ _ _ h'
  split at h'
  · rcases code8_error h' with ⟨_, he⟩ | ⟨_, _, _, h'⟩
    · exact nomatch he
    · exact hk _ _ _ h'
  · rcases code32_error h' with ⟨_, he⟩ | ⟨_, _, _, h'⟩
    · exact nomatch he
    · exact hk _ _ _ h'

/-- An unregistered opcode is reported only where the first byte has no handler (30_encoding.md
R75). -/
theorem decode_opcode {bs : List Byte} {x : Byte}
    (h : decode bs = .error (.unimplementedOpcode x)) :
    ∃ rest, bs = x :: rest ∧ handlerOf x = none := by
  unfold decode at h
  rcases code8_error h with ⟨_, he⟩ | ⟨op, bs, rfl, h'⟩
  · exact nomatch he
  clear h
  have imm8 {q : Nat} {r : List Byte} {k : Byte → List Byte → Except Reject (Instr × List Byte)}
      (hk : ∀ v r, k v r ≠ .error (.unimplementedOpcode x)) :
      code8 q r k ≠ .error (.unimplementedOpcode x) := fun h => by
    rcases code8_error h with ⟨_, he⟩ | ⟨v, r, _, hv⟩
    · exact nomatch he
    · exact hk v r hv
  have imm32 {q : Nat} {r : List Byte} {k : Word → List Byte → Except Reject (Instr × List Byte)}
      (hk : ∀ v r, k v r ≠ .error (.unimplementedOpcode x)) :
      code32 q r k ≠ .error (.unimplementedOpcode x) := fun h => by
    rcases code32_error h with ⟨_, he⟩ | ⟨v, r, _, hv⟩
    · exact nomatch he
    · exact hk v r hv
  cases hh : handlerOf op with
  | none =>
    simp only [hh, Except.error.injEq, Reject.unimplementedOpcode.injEq] at h'
    subst h'
    exact ⟨bs, rfl, hh⟩
  | some hd =>
    simp only [hh] at h'
    exfalso
    revert h'
    cases hd <;> simp only [decodeHandler]
    case group83 =>
      refine decodeModRM_ne_opcode fun d q r => ?_
      unfold decodeGroup83
      repeat' split
      all_goals first | exact imm8 (fun _ _ hc => nomatch hc) | exact fun hc => nomatch hc
    case groupFF =>
      refine decodeModRM_ne_opcode fun d q r => ?_
      unfold decodeGroupFF
      split <;> exact fun hc => nomatch hc
    case movRm32Imm =>
      refine decodeModRM_ne_opcode fun d q r => ?_
      unfold decodeC7
      split
      · exact imm32 (fun _ _ hc => nomatch hc)
      · exact fun hc => nomatch hc
    all_goals first
      | exact decodeModRM_ne_opcode (fun _ _ _ hc => nomatch hc)
      | exact imm8 (fun _ _ hc => nomatch hc)
      | exact imm32 (fun _ _ hc => nomatch hc)
      | exact fun hc => nomatch hc

/-- Where decoding runs out of bytes: the bytes it wanted next reach past the end of those given, and
no further than the longest instruction (30_encoding.md R61). -/
theorem decode_truncated {bs : List Byte} {off n : Nat}
    (h : decode bs = .error (.truncated off n)) :
    bs.length < off + n ∧ off + n ≤ Config.maxInstrLen := by
  have hmax : Config.maxInstrLen = 10 := rfl
  unfold decode at h
  rcases code8_error h with ⟨rfl, he⟩ | ⟨op, bs, rfl, h'⟩
  · simp only [Reject.truncated.injEq] at he; simp only [List.length_nil]; omega
  clear h
  have imm8 {q : Nat} {r : List Byte} {k : Byte → List Byte → Except Reject (Instr × List Byte)}
      (hk : ∀ v r, k v r ≠ .error (.truncated off n)) (hq : q ≤ 6)
      (hl : bs.length + 1 = q + r.length) (h : code8 q r k = .error (.truncated off n)) :
      bs.length + 1 < off + n ∧ off + n ≤ 10 := by
    rcases code8_error h with ⟨rfl, he⟩ | ⟨v, r, rfl, hv⟩
    · simp only [Reject.truncated.injEq] at he; simp only [List.length_nil] at hl; omega
    · exact absurd hv (hk v r)
  have imm32 {q : Nat} {r : List Byte} {k : Word → List Byte → Except Reject (Instr × List Byte)}
      (hk : ∀ v r, k v r ≠ .error (.truncated off n)) (hq : q ≤ 6)
      (hl : bs.length + 1 = q + r.length) (h : code32 q r k = .error (.truncated off n)) :
      bs.length + 1 < off + n ∧ off + n ≤ 10 := by
    rcases code32_error h with ⟨hlt, he⟩ | ⟨v, r, rfl, hv⟩
    · simp only [Reject.truncated.injEq] at he; omega
    · exact absurd hv (hk v r)
  have h1 : bs.length + 1 = 1 + bs.length := by omega
  rw [List.length_cons, hmax]
  cases hh : handlerOf op with
  | none => simp [hh] at h'
  | some hd =>
    simp only [hh] at h'
    cases hd <;> simp only [decodeHandler] at h'
    case group83 =>
      rcases decodeModRM_truncated h' with ⟨h2, h3⟩ | ⟨md, q, r, h, hq, hl⟩
      · omega
      unfold decodeGroup83 at h
      split at h
      · exact imm8 (by simp) hq hl h
      split at h
      · exact imm8 (by simp) hq hl h
      split at h
      · exact imm8 (by simp) hq hl h
      · simp at h
    case groupFF =>
      rcases decodeModRM_truncated h' with ⟨h2, h3⟩ | ⟨md, q, r, h, hq, hl⟩
      · omega
      unfold decodeGroupFF at h
      split at h <;> simp at h
    case movRm32Imm =>
      rcases decodeModRM_truncated h' with ⟨h2, h3⟩ | ⟨md, q, r, h, hq, hl⟩
      · omega
      unfold decodeC7 at h
      split at h
      · exact imm32 (by simp) hq hl h
      · simp at h
    all_goals first
      | (rcases decodeModRM_truncated h' with ⟨h2, h3⟩ | ⟨md, q, r, h, hq, hl⟩
         · omega
         · simp at h)
      | exact imm8 (by simp) (by omega) h1 h'
      | exact imm32 (by simp) (by omega) h1 h'
      | simp at h'

end Sys2Proof
end

