-- ==== Sys2Proof/Laws/Flags.lean ====
section
/-! SUPPORT. The flags computation's exact difference and its narrowing. -/

namespace Sys2Proof.Machine

/-- Narrowing the exact difference is subtraction modulo 2^32 (41_arith_compare.md R110). -/
@[simp] theorem narrowed_difference (l r : Word) :
    BitVec.ofInt 32 ((l.toNat : Int) - (r.toNat : Int)) = l - r := by
  apply BitVec.eq_of_toInt_eq
  rw [BitVec.toInt_sub, BitVec.toInt_ofInt]
  simp [BitVec.toInt_eq_toNat_bmod]

/-- The exact difference is negative when the left operand is the smaller unsigned one. -/
theorem exact_difference_neg (l r : Word) :
    decide ((l.toNat : Int) - (r.toNat : Int) < 0) = decide (l.toNat < r.toNat) := by
  simp

end Sys2Proof.Machine
end

