-- ==== Sys2Proof/Laws/Memory.lean ====
section
/-! SUPPORT. Memory: a read after a write, placed bytes read back, and the canonical form, which every
operation keeps. -/

namespace Sys2Proof.Machine

@[simp] theorem Memory.read_nil (a : Nat) : Memory.read [] a = Config.unlistedByte := rfl

theorem Memory.read_cons (k : Nat) (b : Byte) (m : Memory) (a : Nat) :
    Memory.read ((k, b) :: m) a = if a = k then b else Memory.read m a := rfl

/-- A byte written is what is read there, and every other byte reads as before. -/
theorem Memory.read_write (m : Memory) (a c : Nat) (v : Byte) :
    Memory.read (Memory.write m a v) c = if c = a then v else Memory.read m c := by
  induction m with
  | nil =>
    unfold Memory.write
    split
    · next h => simp [h]
    · simp [Memory.read]
  | cons cell rest ih =>
    obtain ⟨k, b⟩ := cell
    unfold Memory.write
    split
    · next hv =>
      split
      · next hk => subst hk; rw [ih, Memory.read_cons]; split <;> rfl
      · next hk =>
        rw [Memory.read_cons, ih, Memory.read_cons]
        by_cases hc : c = k
        · subst hc; simp [Ne.symm hk]
        · simp [hc]
    · split
      · rw [Memory.read_cons]
      · split
        · next hk => subst hk; rw [Memory.read_cons, Memory.read_cons]; split <;> rfl
        · next hk =>
          rw [Memory.read_cons, ih, Memory.read_cons]
          by_cases hc : c = k
          · subst hc; simp [Ne.symm hk]
          · simp [hc]

@[simp] theorem Memory.read_write_same (m : Memory) (a : Nat) (v : Byte) :
    Memory.read (Memory.write m a v) a = v := by simp [Memory.read_write]

theorem Memory.read_write_other (m : Memory) {a c : Nat} (v : Byte) (h : c ≠ a) :
    Memory.read (Memory.write m a v) c = Memory.read m c := by simp [Memory.read_write, h]

/-- An address below every listed one is unlisted. -/
theorem Memory.read_below {m : Memory} {a : Nat} (h : ∀ c ∈ m, a < c.1) :
    Memory.read m a = Config.unlistedByte := by
  induction m with
  | nil => rfl
  | cons cell rest ih =>
    obtain ⟨k, b⟩ := cell
    have hk : a < k := h (k, b) List.mem_cons_self
    rw [Memory.read_cons, if_neg (by omega)]
    exact ih fun c hc => h c (List.mem_cons_of_mem _ hc)

/-- The cells a write leaves are old ones or the written one. -/
theorem Memory.mem_write {m : Memory} {a : Nat} {v : Byte} {c : Host.Cell}
    (h : c ∈ Memory.write m a v) : c ∈ m ∨ (c = (a, v) ∧ v ≠ Config.unlistedByte) := by
  induction m with
  | nil =>
    unfold Memory.write at h
    split at h
    · simp at h
    · next hv => simp at h; exact .inr ⟨h, hv⟩
  | cons cell rest ih =>
    obtain ⟨k, b⟩ := cell
    unfold Memory.write at h
    split at h
    · split at h
      · exact (ih h).imp_left (List.mem_cons_of_mem _)
      · rcases List.mem_cons.mp h with rfl | h
        · exact .inl List.mem_cons_self
        · exact (ih h).imp_left (List.mem_cons_of_mem _)
    · next hv =>
      split at h
      · rcases List.mem_cons.mp h with rfl | h
        · exact .inr ⟨rfl, hv⟩
        · exact .inl h
      · split at h
        · rcases List.mem_cons.mp h with rfl | h
          · exact .inr ⟨rfl, hv⟩
          · exact .inl (List.mem_cons_of_mem _ h)
        · rcases List.mem_cons.mp h with rfl | h
          · exact .inl List.mem_cons_self
          · exact (ih h).imp_left (List.mem_cons_of_mem _)

theorem Memory.write_sorted {m : Memory} (a : Nat) (v : Byte)
    (h : m.Pairwise fun c d => c.1 < d.1) :
    (Memory.write m a v).Pairwise fun c d => c.1 < d.1 := by
  induction m with
  | nil => unfold Memory.write; split <;> simp
  | cons cell rest ih =>
    obtain ⟨k, b⟩ := cell
    have hr := List.pairwise_cons.mp h
    have keep : k < a ∨ v = Config.unlistedByte → ∀ d ∈ Memory.write rest a v, k < d.1 := by
      intro hlt d hd
      rcases Memory.mem_write hd with hd | ⟨rfl, hne⟩
      · exact hr.1 d hd
      · rcases hlt with hlt | hlt
        · exact hlt
        · exact absurd hlt hne
    unfold Memory.write
    split
    · next hv =>
      split
      · exact ih hr.2
      · exact List.pairwise_cons.mpr ⟨keep (.inr hv), ih hr.2⟩
    · split
      · next hak =>
        refine List.pairwise_cons.mpr ⟨fun d hd => ?_, h⟩
        rcases List.mem_cons.mp hd with rfl | hd
        · exact hak
        · exact Nat.lt_trans hak (hr.1 d hd)
      · split
        · next hak => subst hak; exact List.pairwise_cons.mpr ⟨hr.1, hr.2⟩
        · exact List.pairwise_cons.mpr ⟨keep (.inl (by omega)), ih hr.2⟩

/-- A write in memory keeps the canonical form. -/
theorem Memory.write_wf {m : Memory} {a : Nat} (v : Byte) (h : Memory.wf m)
    (ha : a < Config.memSize) : Memory.wf (Memory.write m a v) :=
  ⟨Memory.write_sorted a v h.1, fun c hc => by
    rcases Memory.mem_write hc with hc | ⟨rfl, hv⟩
    · exact h.2 c hc
    · exact ⟨hv, ha⟩⟩

/-- A four-byte write in memory keeps the canonical form. -/
theorem Memory.write32_wf {m : Memory} {a : Nat} (v : Word) (h : Memory.wf m)
    (ha : a + 4 ≤ Config.memSize) : Memory.wf (Memory.write32 m a v) :=
  Memory.write_wf _ (Memory.write_wf _ (Memory.write_wf _ (Memory.write_wf _ h (by omega))
    (by omega)) (by omega)) (by omega)

/-- Placing bytes keeps the canonical form. -/
theorem Memory.place_wf {m : Memory} (a : Nat) (bs : List Byte) (h : Memory.wf m) :
    Memory.wf (Memory.place m a bs) := by
  induction bs generalizing m a with
  | nil => exact h
  | cons b bs ih =>
    unfold Memory.place
    split
    · next ha => exact ih _ (Memory.write_wf b h ha)
    · exact h

/-- Reset memory is in canonical form. -/
theorem Memory.nil_wf : Memory.wf [] := ⟨.nil, by simp⟩

/-- A four-byte write is seen byte by byte at its four addresses and nowhere else. -/
theorem Memory.read_write32 (m : Memory) (a c : Nat) (v : Word) :
    Memory.read (Memory.write32 m a v) c =
      if a ≤ c ∧ c < a + 4 then byteOf v (c - a) else Memory.read m c := by
  simp only [Memory.write32, Memory.read_write]
  by_cases h3 : c = a + 3
  · subst h3; simp
  by_cases h2 : c = a + 2
  · subst h2; simp
  by_cases h1 : c = a + 1
  · subst h1; simp
  by_cases h0 : c = a
  · subst h0; simp
  · rw [if_neg h3, if_neg h2, if_neg h1, if_neg h0, if_neg (by omega)]

/-- A four-byte write is read back whole. -/
@[simp] theorem Memory.read32_write32 (m : Memory) (a : Nat) (v : Word) :
    Memory.read32 (Memory.write32 m a v) a = v := by
  simp [Memory.read32, Memory.read_write32, le32_byteOf]

/-- An address below every listed one reads as unlisted. -/
theorem Memory.read_unlisted {m : Memory} {a : Nat} (h : ∀ c ∈ m, a < c.1) :
    Memory.read m a = Config.unlistedByte := by
  induction m with
  | nil => rfl
  | cons c rest ih =>
    obtain ⟨k, b⟩ := c
    have hk : a < k := h _ List.mem_cons_self
    unfold Memory.read
    rw [if_neg (by omega)]
    exact ih fun c hc => h c (List.mem_cons_of_mem _ hc)

/-- The bytes read from a range are the bytes at its addresses. -/
theorem Memory.bytes_length (m : Memory) (a n : Nat) : (Memory.bytes m a n).length = n := by
  induction n generalizing a with
  | zero => rfl
  | succ n ih => simp [Memory.bytes, ih]

theorem Memory.bytes_get (m : Memory) (a n k : Nat) (h : k < n) :
    (Memory.bytes m a n)[k]? = some (Memory.read m (a + k)) := by
  induction n generalizing a k with
  | zero => omega
  | succ n ih =>
    cases k with
    | zero => simp [Memory.bytes]
    | succ k => simp only [Memory.bytes, List.getElem?_cons_succ]; rw [ih _ _ (by omega)]; congr 2; omega

/-- Placed bytes are read back where they were placed, and nothing else changes. -/
theorem Memory.read_place (m : Memory) (a c : Nat) (bs : List Byte)
    (h : a + bs.length ≤ Config.memSize) :
    Memory.read (Memory.place m a bs) c =
      if h : a ≤ c ∧ c - a < bs.length then bs[c - a]'h.2 else Memory.read m c := by
  induction bs generalizing m a with
  | nil => simp [Memory.place]
  | cons b bs ih =>
    simp only [List.length_cons] at h
    unfold Memory.place
    rw [if_pos (by omega), ih _ _ (by omega)]
    by_cases hc : c = a
    · subst hc; simp [show ¬(c + 1 ≤ c) by omega]
    · by_cases hlt : a + 1 ≤ c ∧ c - (a + 1) < bs.length
      · have h3 : c - a = (c - (a + 1)) + 1 := by omega
        rw [dif_pos hlt, dif_pos (show a ≤ c ∧ c - a < (b :: bs).length by simp; omega)]
        simp only [h3, List.getElem_cons_succ]
      · have h2 : ¬(a ≤ c ∧ c - a < bs.length + 1) := by omega
        simp only [hlt, List.length_cons, h2, ↓reduceDIte]
        exact Memory.read_write_other m b hc

end Sys2Proof.Machine
end

