-- ==== Sys2Proof/Laws/Regs.lean ====
section
/-! SUPPORT. Register reads after register writes, for the 32-bit registers and the 8-bit views. -/

namespace Sys2Proof.Machine

/-- A written register holds the value, and every other register is as before (10_state.md R23). -/
theorem Regs.get_set (g : Regs) (r q : Reg32) (v : Word) :
    (g.set r v).get q = if q = r then v else g.get q := by
  cases r <;> cases q <;> rfl

@[simp] theorem Regs.get_set_same (g : Regs) (r : Reg32) (v : Word) : (g.set r v).get r = v := by
  simp [Regs.get_set]

theorem Regs.get_set_other (g : Regs) {r q : Reg32} (v : Word) (h : q ≠ r) :
    (g.set r v).get q = g.get q := by simp [Regs.get_set, h]

/-- Two register files that agree on every register are equal. -/
theorem Regs.ext_get {g g' : Regs} (h : ∀ r, g.get r = g'.get r) : g = g' := by
  obtain ⟨_, _, _, _, _, _, _, _⟩ := g
  obtain ⟨_, _, _, _, _, _, _, _⟩ := g'
  have := h .eax; have := h .ecx; have := h .edx; have := h .ebx
  have := h .esp; have := h .ebp; have := h .esi; have := h .edi
  simp_all [Regs.get]

/-- Bit `k` of a register with one view replaced: the view's bit inside it, the old bit outside. -/
theorem insertView_bit (w : Word) (high : Bool) (v : Byte) (k : Nat) :
    (insertView w high v).getLsbD k =
      if (if high then 8 else 0) ≤ k ∧ k < (if high then 16 else 8) then
        v.getLsbD (k - if high then 8 else 0)
      else w.getLsbD k := by
  cases high
  · simp only [insertView, Bool.false_eq_true, ↓reduceIte, BitVec.getLsbD_append,
      BitVec.getLsbD_extractLsb']
    by_cases hk : k < 8
    · simp [hk]
    · by_cases hk2 : k < 32
      · simp [hk, show k - 8 < 24 by omega, show 8 + (k - 8) = k by omega]
      · simp [hk, show ¬(k - 8 < 24) by omega, BitVec.getLsbD_of_ge w k (by omega)]
  · simp only [insertView, ↓reduceIte, BitVec.getLsbD_append, BitVec.getLsbD_extractLsb']
    by_cases hk : k < 8
    · simp [hk, show ¬(8 ≤ k) by omega]
    · by_cases hk1 : k < 16
      · simp [hk, show k - 8 < 8 by omega, show 8 ≤ k by omega, hk1]
      · by_cases hk2 : k < 32
        · simp [hk, show ¬(k - 8 < 8) by omega, hk1, show k - 8 - 8 < 16 by omega,
            show 16 + (k - 8 - 8) = k by omega]
        · simp [hk, show ¬(k - 8 < 8) by omega, hk1, show ¬(k - 8 - 8 < 16) by omega,
            BitVec.getLsbD_of_ge w k (by omega)]

/-- The view just written reads as the value. -/
theorem Regs.get8_set8 (g : Regs) (i : Reg8) (v : Byte) : (g.set8 i v).get8 i = v := by
  apply BitVec.eq_of_getLsbD_eq
  intro k hk
  cases i <;>
    simp [Regs.get8, Regs.set8, viewHigh, viewReg, insertView_bit, hk, show 8 + k < 16 by omega]

/-- The registers a view's write leaves alone are all but the one it lies in. -/
theorem Regs.get_set8 (g : Regs) (i : Reg8) (v : Byte) (q : Reg32) :
    (g.set8 i v).get q =
      if q = viewReg i then insertView (g.get (viewReg i)) (viewHigh i) v else g.get q := by
  simp [Regs.set8, Regs.get_set]

/-- Writing a view with its own value changes nothing (40_move.md R103). -/
theorem insertView_self (w : Word) (high : Bool) :
    insertView w high (if high then w.extractLsb' 8 8 else w.extractLsb' 0 8) = w := by
  apply BitVec.eq_of_getLsbD_eq
  intro k hk
  rw [insertView_bit]
  cases high
  · simp only [Bool.false_eq_true, ↓reduceIte, BitVec.getLsbD_extractLsb']
    split
    · next h => simp [h.2]
    · rfl
  · simp only [↓reduceIte, BitVec.getLsbD_extractLsb']
    split
    · next h => simp [show k - 8 < 8 by omega, show 8 + (k - 8) = k by omega]
    · rfl

end Sys2Proof.Machine
end

