-- ==== Sys2Proof/Laws/State.lean ====
section
/-! SUPPORT. What each update of the state does to each field, so that no proof unfolds a record
update. -/

namespace Sys2Proof.Machine

variable (s : State)

/-! ### setReg -/

@[simp] theorem State.setReg_regs (r : Reg32) (v : Word) : (s.setReg r v).regs = s.regs.set r v := rfl
@[simp] theorem State.setReg_eip (r : Reg32) (v : Word) : (s.setReg r v).eip = s.eip := rfl
@[simp] theorem State.setReg_flags (r : Reg32) (v : Word) : (s.setReg r v).flags = s.flags := rfl
@[simp] theorem State.setReg_mem (r : Reg32) (v : Word) : (s.setReg r v).mem = s.mem := rfl
@[simp] theorem State.setReg_run (r : Reg32) (v : Word) : (s.setReg r v).run = s.run := rfl
@[simp] theorem State.setReg_hostLog (r : Reg32) (v : Word) : (s.setReg r v).hostLog = s.hostLog := rfl
@[simp] theorem State.setReg_consoleReads (r : Reg32) (v : Word) : (s.setReg r v).consoleReads = s.consoleReads := rfl

/-! ### setReg8 -/

@[simp] theorem State.setReg8_regs (i : Reg8) (v : Byte) : (s.setReg8 i v).regs = s.regs.set8 i v := rfl
@[simp] theorem State.setReg8_eip (i : Reg8) (v : Byte) : (s.setReg8 i v).eip = s.eip := rfl
@[simp] theorem State.setReg8_flags (i : Reg8) (v : Byte) : (s.setReg8 i v).flags = s.flags := rfl
@[simp] theorem State.setReg8_mem (i : Reg8) (v : Byte) : (s.setReg8 i v).mem = s.mem := rfl
@[simp] theorem State.setReg8_run (i : Reg8) (v : Byte) : (s.setReg8 i v).run = s.run := rfl
@[simp] theorem State.setReg8_hostLog (i : Reg8) (v : Byte) : (s.setReg8 i v).hostLog = s.hostLog := rfl
@[simp] theorem State.setReg8_consoleReads (i : Reg8) (v : Byte) : (s.setReg8 i v).consoleReads = s.consoleReads := rfl

/-! ### setFlags -/

@[simp] theorem State.setFlags_regs (f : Flags) : (s.setFlags f).regs = s.regs := rfl
@[simp] theorem State.setFlags_eip (f : Flags) : (s.setFlags f).eip = s.eip := rfl
@[simp] theorem State.setFlags_flags (f : Flags) : (s.setFlags f).flags = f := rfl
@[simp] theorem State.setFlags_mem (f : Flags) : (s.setFlags f).mem = s.mem := rfl
@[simp] theorem State.setFlags_run (f : Flags) : (s.setFlags f).run = s.run := rfl
@[simp] theorem State.setFlags_hostLog (f : Flags) : (s.setFlags f).hostLog = s.hostLog := rfl
@[simp] theorem State.setFlags_consoleReads (f : Flags) : (s.setFlags f).consoleReads = s.consoleReads := rfl

/-! ### jumpTo -/

@[simp] theorem State.jumpTo_regs (a : Word) : (s.jumpTo a).regs = s.regs := rfl
@[simp] theorem State.jumpTo_eip (a : Word) : (s.jumpTo a).eip = a := rfl
@[simp] theorem State.jumpTo_flags (a : Word) : (s.jumpTo a).flags = s.flags := rfl
@[simp] theorem State.jumpTo_mem (a : Word) : (s.jumpTo a).mem = s.mem := rfl
@[simp] theorem State.jumpTo_run (a : Word) : (s.jumpTo a).run = s.run := rfl
@[simp] theorem State.jumpTo_hostLog (a : Word) : (s.jumpTo a).hostLog = s.hostLog := rfl
@[simp] theorem State.jumpTo_consoleReads (a : Word) : (s.jumpTo a).consoleReads = s.consoleReads := rfl

/-! ### advance -/

@[simp] theorem State.advance_regs (n : Nat) : (s.advance n).regs = s.regs := rfl
@[simp] theorem State.advance_eip (n : Nat) : (s.advance n).eip = s.eip + BitVec.ofNat 32 n := rfl
@[simp] theorem State.advance_flags (n : Nat) : (s.advance n).flags = s.flags := rfl
@[simp] theorem State.advance_mem (n : Nat) : (s.advance n).mem = s.mem := rfl
@[simp] theorem State.advance_run (n : Nat) : (s.advance n).run = s.run := rfl
@[simp] theorem State.advance_hostLog (n : Nat) : (s.advance n).hostLog = s.hostLog := rfl
@[simp] theorem State.advance_consoleReads (n : Nat) : (s.advance n).consoleReads = s.consoleReads := rfl

/-! ### call -/

@[simp] theorem State.call_regs (e : HostEvent) : (s.call e).regs = s.regs := rfl
@[simp] theorem State.call_eip (e : HostEvent) : (s.call e).eip = s.eip := rfl
@[simp] theorem State.call_flags (e : HostEvent) : (s.call e).flags = s.flags := rfl
@[simp] theorem State.call_mem (e : HostEvent) : (s.call e).mem = s.mem := rfl
@[simp] theorem State.call_run (e : HostEvent) : (s.call e).run = s.run := rfl
@[simp] theorem State.call_hostLog (e : HostEvent) : (s.call e).hostLog = s.hostLog ++ [e] := rfl
@[simp] theorem State.call_consoleReads (e : HostEvent) : (s.call e).consoleReads = s.consoleReads := rfl

/-! ### portWrite -/

@[simp] theorem State.portWrite_regs (p : Port) (v : Byte) : (s.portWrite p v).regs = s.regs := rfl
@[simp] theorem State.portWrite_eip (p : Port) (v : Byte) : (s.portWrite p v).eip = s.eip := rfl
@[simp] theorem State.portWrite_flags (p : Port) (v : Byte) : (s.portWrite p v).flags = s.flags := rfl
@[simp] theorem State.portWrite_mem (p : Port) (v : Byte) : (s.portWrite p v).mem = s.mem := rfl
@[simp] theorem State.portWrite_run (p : Port) (v : Byte) : (s.portWrite p v).run = s.run := rfl
@[simp] theorem State.portWrite_hostLog (p : Port) (v : Byte) : (s.portWrite p v).hostLog = s.hostLog ++ [.portWrite p v] := rfl
@[simp] theorem State.portWrite_consoleReads (p : Port) (v : Byte) : (s.portWrite p v).consoleReads = s.consoleReads := rfl

/-! ### biosVideo -/

@[simp] theorem State.biosVideo_regs : (s.biosVideo).regs = s.regs := rfl
@[simp] theorem State.biosVideo_eip : (s.biosVideo).eip = s.eip := rfl
@[simp] theorem State.biosVideo_flags : (s.biosVideo).flags = s.flags := rfl
@[simp] theorem State.biosVideo_mem : (s.biosVideo).mem = s.mem := rfl
@[simp] theorem State.biosVideo_run : (s.biosVideo).run = s.run := rfl
@[simp] theorem State.biosVideo_consoleReads : (s.biosVideo).consoleReads = s.consoleReads := rfl

/-! ### reportUnknown -/

@[simp] theorem State.reportUnknown_regs (vec : Byte) : (s.reportUnknown vec).regs = s.regs := rfl
@[simp] theorem State.reportUnknown_eip (vec : Byte) : (s.reportUnknown vec).eip = s.eip := rfl
@[simp] theorem State.reportUnknown_flags (vec : Byte) : (s.reportUnknown vec).flags = s.flags := rfl
@[simp] theorem State.reportUnknown_mem (vec : Byte) : (s.reportUnknown vec).mem = s.mem := rfl
@[simp] theorem State.reportUnknown_run (vec : Byte) : (s.reportUnknown vec).run = s.run := rfl
@[simp] theorem State.reportUnknown_hostLog (vec : Byte) : (s.reportUnknown vec).hostLog = s.hostLog ++ [.unknownInterrupt vec] := rfl
@[simp] theorem State.reportUnknown_consoleReads (vec : Byte) : (s.reportUnknown vec).consoleReads = s.consoleReads := rfl

/-! ### traceFetch -/

@[simp] theorem State.traceFetch_regs : (s.traceFetch).regs = s.regs := rfl
@[simp] theorem State.traceFetch_eip : (s.traceFetch).eip = s.eip := rfl
@[simp] theorem State.traceFetch_flags : (s.traceFetch).flags = s.flags := rfl
@[simp] theorem State.traceFetch_mem : (s.traceFetch).mem = s.mem := rfl
@[simp] theorem State.traceFetch_run : (s.traceFetch).run = s.run := rfl
@[simp] theorem State.traceFetch_consoleReads : (s.traceFetch).consoleReads = s.consoleReads := rfl

/-! ### raiseOpcode -/

@[simp] theorem State.raiseOpcode_regs (op : Byte) : (s.raiseOpcode op).regs = s.regs := rfl
@[simp] theorem State.raiseOpcode_eip (op : Byte) : (s.raiseOpcode op).eip = s.eip := rfl
@[simp] theorem State.raiseOpcode_flags (op : Byte) : (s.raiseOpcode op).flags = s.flags := rfl
@[simp] theorem State.raiseOpcode_mem (op : Byte) : (s.raiseOpcode op).mem = s.mem := rfl
@[simp] theorem State.raiseOpcode_run (op : Byte) : (s.raiseOpcode op).run = .haltedUnimplemented (.opcode op) := rfl
@[simp] theorem State.raiseOpcode_hostLog (op : Byte) : (s.raiseOpcode op).hostLog = s.hostLog := rfl
@[simp] theorem State.raiseOpcode_consoleReads (op : Byte) : (s.raiseOpcode op).consoleReads = s.consoleReads := rfl

/-! ### exitOutOfRange -/

@[simp] theorem State.exitOutOfRange_regs : (s.exitOutOfRange).regs = s.regs := rfl
@[simp] theorem State.exitOutOfRange_eip : (s.exitOutOfRange).eip = s.eip := rfl
@[simp] theorem State.exitOutOfRange_flags : (s.exitOutOfRange).flags = s.flags := rfl
@[simp] theorem State.exitOutOfRange_mem : (s.exitOutOfRange).mem = s.mem := rfl
@[simp] theorem State.exitOutOfRange_run : (s.exitOutOfRange).run = .haltedOutOfRange := rfl
@[simp] theorem State.exitOutOfRange_hostLog : (s.exitOutOfRange).hostLog = s.hostLog := rfl
@[simp] theorem State.exitOutOfRange_consoleReads : (s.exitOutOfRange).consoleReads = s.consoleReads := rfl

/-! ### storeCode -/

@[simp] theorem State.storeCode_regs (bs : List Byte) : (s.storeCode bs).regs = s.regs := rfl
@[simp] theorem State.storeCode_eip (bs : List Byte) : (s.storeCode bs).eip = s.eip := rfl
@[simp] theorem State.storeCode_flags (bs : List Byte) : (s.storeCode bs).flags = s.flags := rfl
@[simp] theorem State.storeCode_mem (bs : List Byte) : (s.storeCode bs).mem = Memory.place s.mem s.eip.toNat bs := rfl
@[simp] theorem State.storeCode_run (bs : List Byte) : (s.storeCode bs).run = s.run := rfl
@[simp] theorem State.storeCode_hostLog (bs : List Byte) : (s.storeCode bs).hostLog = s.hostLog := rfl
@[simp] theorem State.storeCode_consoleReads (bs : List Byte) : (s.storeCode bs).consoleReads = s.consoleReads := rfl

/-! ### Registers and views of an updated state -/

@[simp] theorem State.setFlags_reg (f : Flags) (r : Reg32) : (s.setFlags f).reg r = s.reg r := rfl
@[simp] theorem State.setFlags_reg8 (f : Flags) (i : Reg8) : (s.setFlags f).reg8 i = s.reg8 i := rfl
@[simp] theorem State.jumpTo_reg (a : Word) (r : Reg32) : (s.jumpTo a).reg r = s.reg r := rfl
@[simp] theorem State.jumpTo_reg8 (a : Word) (i : Reg8) : (s.jumpTo a).reg8 i = s.reg8 i := rfl
@[simp] theorem State.advance_reg (n : Nat) (r : Reg32) : (s.advance n).reg r = s.reg r := rfl
@[simp] theorem State.advance_reg8 (n : Nat) (i : Reg8) : (s.advance n).reg8 i = s.reg8 i := rfl
@[simp] theorem State.call_reg (e : HostEvent) (r : Reg32) : (s.call e).reg r = s.reg r := rfl
@[simp] theorem State.call_reg8 (e : HostEvent) (i : Reg8) : (s.call e).reg8 i = s.reg8 i := rfl
@[simp] theorem State.traceFetch_reg (r : Reg32) : (s.traceFetch).reg r = s.reg r := rfl
@[simp] theorem State.traceFetch_reg8 (i : Reg8) : (s.traceFetch).reg8 i = s.reg8 i := rfl
@[simp] theorem State.raiseOpcode_reg (op : Byte) (r : Reg32) : (s.raiseOpcode op).reg r = s.reg r := rfl
@[simp] theorem State.raiseOpcode_reg8 (op : Byte) (i : Reg8) : (s.raiseOpcode op).reg8 i = s.reg8 i := rfl
@[simp] theorem State.storeCode_reg (bs : List Byte) (r : Reg32) : (s.storeCode bs).reg r = s.reg r := rfl
@[simp] theorem State.storeCode_reg8 (bs : List Byte) (i : Reg8) : (s.storeCode bs).reg8 i = s.reg8 i := rfl
@[simp] theorem State.setReg_reg (r q : Reg32) (v : Word) :
    (s.setReg r v).reg q = if q = r then v else s.reg q := Regs.get_set _ _ _ _
@[simp] theorem State.setReg8_reg8 (i : Reg8) (v : Byte) : (s.setReg8 i v).reg8 i = v :=
  Regs.get8_set8 _ _ _

/-! ### haltAtZero -/

@[simp] theorem State.haltAtZero_regs : s.haltAtZero.regs = s.regs := by
  unfold State.haltAtZero; split <;> rfl
@[simp] theorem State.haltAtZero_eip : s.haltAtZero.eip = s.eip := by
  unfold State.haltAtZero; split <;> rfl
@[simp] theorem State.haltAtZero_flags : s.haltAtZero.flags = s.flags := by
  unfold State.haltAtZero; split <;> rfl
@[simp] theorem State.haltAtZero_mem : s.haltAtZero.mem = s.mem := by
  unfold State.haltAtZero; split <;> rfl
@[simp] theorem State.haltAtZero_run :
    s.haltAtZero.run = if s.eip = 0#32 then .haltedNormal else s.run := by
  unfold State.haltAtZero; split <;> rfl
@[simp] theorem State.haltAtZero_hostLog : s.haltAtZero.hostLog = s.hostLog := by
  unfold State.haltAtZero; split <;> rfl
@[simp] theorem State.haltAtZero_consoleReads : s.haltAtZero.consoleReads = s.consoleReads := by
  unfold State.haltAtZero; split <;> rfl

/-! ### portRead -/

@[simp] theorem State.portRead_regs (p : Port) : (s.portRead p).2.regs = s.regs := by
  unfold State.portRead; split <;> rfl
@[simp] theorem State.portRead_eip (p : Port) : (s.portRead p).2.eip = s.eip := by
  unfold State.portRead; split <;> rfl
@[simp] theorem State.portRead_flags (p : Port) : (s.portRead p).2.flags = s.flags := by
  unfold State.portRead; split <;> rfl
@[simp] theorem State.portRead_mem (p : Port) : (s.portRead p).2.mem = s.mem := by
  unfold State.portRead; split <;> rfl
@[simp] theorem State.portRead_run (p : Port) : (s.portRead p).2.run = s.run := by
  unfold State.portRead; split <;> rfl
@[simp] theorem State.portRead_hostLog (p : Port) :
    (s.portRead p).2.hostLog = s.hostLog ++ [.portRead p (s.portRead p).1] := by
  unfold State.portRead; split <;> rfl
@[simp] theorem State.portRead_consoleReads (p : Port) :
    (s.portRead p).2.consoleReads =
      if p = Config.consolePort then s.consoleReads + 1 else s.consoleReads := by
  unfold State.portRead; split <;> rfl

/-- The byte a port read answers (60_exceptions.md R193). -/
theorem State.portRead_value (p : Port) :
    (s.portRead p).1 =
      if p = Config.consolePort then Config.consoleByte s.consoleReads else 0#8 := by
  unfold State.portRead; split <;> rfl

/-! ### Outcomes -/

@[simp] theorem finish_ok : finish (.ok s) = .next s := rfl
@[simp] theorem finish_error (f : Fault) : finish (.error f) = .fault f := rfl
@[simp] theorem afterHandler_next : afterHandler (.next s) = .next s.haltAtZero := rfl
@[simp] theorem afterHandler_fault (f : Fault) : afterHandler (.fault f) = .fault f := rfl
@[simp] theorem afterHandler_refused (r : Refusal) : afterHandler (.refused r) = .refused r := rfl
@[simp] theorem ok_bind {α β : Type} (a : α) (k : α → Except Fault β) :
    (Except.ok a >>= k : Except Fault β) = k a := rfl
@[simp] theorem error_bind {α β : Type} (f : Fault) (k : α → Except Fault β) :
    (Except.error f >>= k : Except Fault β) = .error f := rfl
@[simp] theorem pure_ok {α : Type} (a : α) : (pure a : Except Fault α) = .ok a := rfl

/-- What answers a next state is a computation that raised nothing. -/
theorem finish_next {x : Except Fault State} {t : State} : finish x = .next t ↔ x = .ok t := by
  cases x <;> simp [finish, raise]

/-- What answers a fault is a computation that raised it. -/
theorem finish_fault {x : Except Fault State} {f : Fault} : finish x = .fault f ↔ x = .error f := by
  cases x <;> simp [finish, raise]

/-- `finish` never refuses. -/
theorem finish_not_refused {x : Except Fault State} {r : Refusal} : finish x ≠ .refused r := by
  cases x <;> simp [finish, raise]

/-- A computation in two parts succeeds when both do. -/
theorem bind_ok {α β : Type} {x : Except Fault α} {k : α → Except Fault β} {b : β} :
    (x >>= k) = .ok b ↔ ∃ a, x = .ok a ∧ k a = .ok b := by
  cases x <;> simp

/-- A computation in two parts raises what its first part raises, or else its second. -/
theorem bind_error {α β : Type} {x : Except Fault α} {k : α → Except Fault β} {f : Fault} :
    (x >>= k) = .error f ↔ x = .error f ∨ ∃ a, x = .ok a ∧ k a = .error f := by
  cases x <;> simp

end Sys2Proof.Machine
end

