-- ==== Sys2Proof/Laws/Ops.lean ====
section
/-! SUPPORT. One lemma per shared operation that says everything it can do: what it answers when its
bytes lie in memory, what it raises when they do not, and what its success tells. -/

namespace Sys2Proof.Machine

variable {s t : State} {a : Word}

/-! ## Bounds -/

theorem checkBounds_eq (a : Word) (n : Nat) (kind : AccessKind) :
    checkBounds a n kind =
      if InMemory a n then .ok () else .error (.outOfBounds a n kind) := by
  unfold checkBounds InMemory
  by_cases h : a.toNat + n ≤ Config.memSize
  · rw [if_neg (by omega), if_pos h]
  · rw [if_pos (by omega), if_neg h]

@[simp] theorem checkBounds_in {n : Nat} {kind : AccessKind} (h : InMemory a n) :
    checkBounds a n kind = .ok () := by rw [checkBounds_eq, if_pos h]

@[simp] theorem checkBounds_out {n : Nat} {kind : AccessKind} (h : ¬InMemory a n) :
    checkBounds a n kind = .error (.outOfBounds a n kind) := by rw [checkBounds_eq, if_neg h]

/-! ## Memory accesses -/

theorem memRead8_eq (s : State) (a : Word) :
    s.memRead8 a =
      if InMemory a 1 then .ok (Memory.read s.mem a.toNat)
      else .error (.outOfBounds a 1 .read) := by
  unfold State.memRead8
  rw [checkBounds_eq]
  split <;> rfl

theorem memRead32_eq (s : State) (a : Word) :
    s.memRead32 a =
      if InMemory a 4 then .ok (Memory.read32 s.mem a.toNat)
      else .error (.outOfBounds a 4 .read) := by
  unfold State.memRead32
  rw [checkBounds_eq]
  split <;> rfl

theorem memWrite8_eq (s : State) (a : Word) (v : Byte) :
    s.memWrite8 a v =
      if InMemory a 1 then .ok { s with mem := Memory.write s.mem a.toNat v }
      else .error (.outOfBounds a 1 .write) := by
  unfold State.memWrite8
  rw [checkBounds_eq]
  split <;> rfl

theorem memWrite32_eq (s : State) (a : Word) (v : Word) :
    s.memWrite32 a v =
      if InMemory a 4 then .ok { s with mem := Memory.write32 s.mem a.toNat v }
      else .error (.outOfBounds a 4 .write) := by
  unfold State.memWrite32
  rw [checkBounds_eq]
  split <;> rfl

/-! ## The stack -/

/-- Everything Push can do (42_stack.md R130). -/
theorem push_eq (s : State) (v : Word) :
    s.push v =
      if InMemory (s.reg .esp - 4#32) 4 then
        .ok { s with
              regs := s.regs.set .esp (s.reg .esp - 4#32)
              mem := Memory.write32 s.mem (s.reg .esp - 4#32).toNat v }
      else .error (.outOfBounds (s.reg .esp - 4#32) 4 .write) := by
  unfold State.push
  by_cases h : InMemory (s.reg .esp - 4#32) 4
  · have hr : (s.setReg .esp (s.reg .esp - 4#32)).reg .esp = s.reg .esp - 4#32 := by
      simp [State.reg, State.setReg]
    simp only [checkBounds_in h, ok_bind, hr, memWrite32_eq, if_pos h]
    rfl
  · simp only [checkBounds_out h, error_bind, if_neg h]

/-- Everything Pop can do (42_stack.md R131). -/
theorem pop_eq (s : State) :
    s.pop =
      if InMemory (s.reg .esp) 4 then
        .ok (Memory.read32 s.mem (s.reg .esp).toNat, s.setReg .esp (s.reg .esp + 4#32))
      else .error (.outOfBounds (s.reg .esp) 4 .read) := by
  unfold State.pop
  rw [memRead32_eq]
  split <;> rfl

theorem push_in {v : Word} (h : InMemory (s.reg .esp - 4#32) 4) :
    s.push v =
      .ok { s with
            regs := s.regs.set .esp (s.reg .esp - 4#32)
            mem := Memory.write32 s.mem (s.reg .esp - 4#32).toNat v } :=
  (push_eq s v).trans (if_pos h)

theorem push_out {v : Word} (h : ¬InMemory (s.reg .esp - 4#32) 4) :
    s.push v = .error (.outOfBounds (s.reg .esp - 4#32) 4 .write) :=
  (push_eq s v).trans (if_neg h)

theorem pop_in (h : InMemory (s.reg .esp) 4) :
    s.pop = .ok (Memory.read32 s.mem (s.reg .esp).toNat, s.setReg .esp (s.reg .esp + 4#32)) :=
  (pop_eq s).trans (if_pos h)

theorem pop_out (h : ¬InMemory (s.reg .esp) 4) :
    s.pop = .error (.outOfBounds (s.reg .esp) 4 .read) :=
  (pop_eq s).trans (if_neg h)

/-! ## Operands -/

/-- Everything reading a 32-bit r/m operand can do (30_encoding.md R68). -/
theorem readRm32_eq (s : State) (d : Rm32) :
    s.readRm32 d =
      match d with
      | .reg r => .ok (s.reg r)
      | .mem m =>
        if InMemory (MemRef.ea m s) 4 then .ok (Memory.read32 s.mem (MemRef.ea m s).toNat)
        else .error (.outOfBounds (MemRef.ea m s) 4 .read) := by
  cases d with
  | reg r => rfl
  | mem m => exact memRead32_eq s _

/-- Everything reading an 8-bit r/m operand can do (30_encoding.md R68). -/
theorem readRm8_eq (s : State) (d : Rm8) :
    s.readRm8 d =
      match d with
      | .reg r => .ok (s.reg8 r)
      | .mem m =>
        if InMemory (MemRef.ea m s) 1 then .ok (Memory.read s.mem (MemRef.ea m s).toNat)
        else .error (.outOfBounds (MemRef.ea m s) 1 .read) := by
  cases d with
  | reg r => rfl
  | mem m => exact memRead8_eq s _

/-- Everything writing a 32-bit r/m operand can do (30_encoding.md R68). -/
theorem writeRm32_eq (s : State) (d : Rm32) (v : Word) :
    s.writeRm32 d v =
      match d with
      | .reg r => .ok (s.setReg r v)
      | .mem m =>
        if InMemory (MemRef.ea m s) 4 then
          .ok { s with mem := Memory.write32 s.mem (MemRef.ea m s).toNat v }
        else .error (.outOfBounds (MemRef.ea m s) 4 .write) := by
  cases d with
  | reg r => rfl
  | mem m => exact memWrite32_eq s _ v

/-- Everything writing an 8-bit r/m operand can do (30_encoding.md R68). -/
theorem writeRm8_eq (s : State) (d : Rm8) (v : Byte) :
    s.writeRm8 d v =
      match d with
      | .reg r => .ok (s.setReg8 r v)
      | .mem m =>
        if InMemory (MemRef.ea m s) 1 then
          .ok { s with mem := Memory.write s.mem (MemRef.ea m s).toNat v }
        else .error (.outOfBounds (MemRef.ea m s) 1 .write) := by
  cases d with
  | reg r => rfl
  | mem m => exact memWrite8_eq s _ v

/-- An accessible 32-bit operand reads as its value. -/
theorem readRm32_ok {d : Rm32} (h : Rm32Accessible d s) : s.readRm32 d = .ok (rm32Value d s) := by
  cases d with
  | reg r => rfl
  | mem m => exact (memRead32_eq s _).trans (if_pos h)

/-- An accessible 8-bit operand reads as its value. -/
theorem readRm8_ok {d : Rm8} (h : Rm8Accessible d s) : s.readRm8 d = .ok (rm8Value d s) := by
  cases d with
  | reg r => rfl
  | mem m => exact (memRead8_eq s _).trans (if_pos h)

/-! ## What a success tells -/

/-- A Push that succeeded moved ESP and stored its value (42_stack.md R130). -/
theorem push_cases {v : Word} (h : s.push v = .ok t) :
    InMemory (s.reg .esp - 4#32) 4 ∧
    t = { s with
          regs := s.regs.set .esp (s.reg .esp - 4#32)
          mem := Memory.write32 s.mem (s.reg .esp - 4#32).toNat v } := by
  rw [push_eq] at h
  split at h
  · next hb => exact ⟨hb, by simpa using h.symm⟩
  · simp at h

/-- A Pop that succeeded read the stack slot and moved ESP (42_stack.md R131). -/
theorem pop_cases {v : Word} (h : s.pop = .ok (v, t)) :
    InMemory (s.reg .esp) 4 ∧ v = Memory.read32 s.mem (s.reg .esp).toNat ∧
    t = s.setReg .esp (s.reg .esp + 4#32) := by
  rw [pop_eq] at h
  split at h
  · next hb =>
    simp only [Except.ok.injEq, Prod.mk.injEq] at h
    exact ⟨hb, h.1.symm, h.2.symm⟩
  · simp at h

/-- A 32-bit operand that was read was accessible (30_encoding.md R68). -/
theorem readRm32_cases {d : Rm32} {v : Word} (h : s.readRm32 d = .ok v) :
    Rm32Accessible d s ∧ v = rm32Value d s := by
  cases d with
  | reg r => simp only [State.readRm32, Except.ok.injEq] at h; exact ⟨trivial, h.symm⟩
  | mem m =>
    rw [readRm32_eq] at h
    simp only at h
    split at h
    · next hb => simp only [Except.ok.injEq] at h; exact ⟨hb, h.symm⟩
    · simp at h

/-- An 8-bit operand that was read was accessible (30_encoding.md R68). -/
theorem readRm8_cases {d : Rm8} {v : Byte} (h : s.readRm8 d = .ok v) :
    Rm8Accessible d s ∧ v = rm8Value d s := by
  cases d with
  | reg r => simp only [State.readRm8, Except.ok.injEq] at h; exact ⟨trivial, h.symm⟩
  | mem m =>
    rw [readRm8_eq] at h
    simp only at h
    split at h
    · next hb => simp only [Except.ok.injEq] at h; exact ⟨hb, h.symm⟩
    · simp at h

/-- A 32-bit operand that was written is a register, or four bytes in memory (30_encoding.md R68). -/
theorem writeRm32_cases {d : Rm32} {v : Word} (h : s.writeRm32 d v = .ok t) :
    (∃ r, d = .reg r ∧ t = s.setReg r v) ∨
    (∃ m, d = .mem m ∧ InMemory (MemRef.ea m s) 4 ∧
      t = { s with mem := Memory.write32 s.mem (MemRef.ea m s).toNat v }) := by
  cases d with
  | reg r => simp only [State.writeRm32, Except.ok.injEq] at h; exact .inl ⟨r, rfl, h.symm⟩
  | mem m =>
    rw [writeRm32_eq] at h
    simp only at h
    split at h
    · next hb => simp only [Except.ok.injEq] at h; exact .inr ⟨m, rfl, hb, h.symm⟩
    · simp at h

/-- An 8-bit operand that was written is a view, or a byte in memory (30_encoding.md R68). -/
theorem writeRm8_cases {d : Rm8} {v : Byte} (h : s.writeRm8 d v = .ok t) :
    (∃ r, d = .reg r ∧ t = s.setReg8 r v) ∨
    (∃ m, d = .mem m ∧ InMemory (MemRef.ea m s) 1 ∧
      t = { s with mem := Memory.write s.mem (MemRef.ea m s).toNat v }) := by
  cases d with
  | reg r => simp only [State.writeRm8, Except.ok.injEq] at h; exact .inl ⟨r, rfl, h.symm⟩
  | mem m =>
    rw [writeRm8_eq] at h
    simp only at h
    split at h
    · next hb => simp only [Except.ok.injEq] at h; exact .inr ⟨m, rfl, hb, h.symm⟩
    · simp at h

/-! ## What a failure tells -/

/-- The only fault of the operand and stack operations is a data access past the end of memory. -/
def IsDataFault (f : Fault) : Prop :=
  ∃ a n kind, f = .outOfBounds a n kind ∧ kind ≠ .fetch ∧ Config.memSize < a.toNat + n

theorem push_error {v : Word} {f : Fault} (h : s.push v = .error f) : IsDataFault f := by
  rw [push_eq] at h
  split at h
  · simp at h
  · next hb =>
    simp only [Except.error.injEq] at h
    exact ⟨_, _, _, h.symm, by decide, Nat.lt_of_not_le hb⟩

theorem pop_error {f : Fault} (h : s.pop = .error f) : IsDataFault f := by
  rw [pop_eq] at h
  split at h
  · simp at h
  · next hb =>
    simp only [Except.error.injEq] at h
    exact ⟨_, _, _, h.symm, by decide, Nat.lt_of_not_le hb⟩

theorem readRm32_error {d : Rm32} {f : Fault} (h : s.readRm32 d = .error f) : IsDataFault f := by
  rw [readRm32_eq] at h
  cases d with
  | reg r => simp at h
  | mem m =>
    simp only at h
    split at h
    · simp at h
    · next hb =>
      simp only [Except.error.injEq] at h
      exact ⟨_, _, _, h.symm, by decide, Nat.lt_of_not_le hb⟩

theorem readRm8_error {d : Rm8} {f : Fault} (h : s.readRm8 d = .error f) : IsDataFault f := by
  rw [readRm8_eq] at h
  cases d with
  | reg r => simp at h
  | mem m =>
    simp only at h
    split at h
    · simp at h
    · next hb =>
      simp only [Except.error.injEq] at h
      exact ⟨_, _, _, h.symm, by decide, Nat.lt_of_not_le hb⟩

theorem writeRm32_error {d : Rm32} {v : Word} {f : Fault} (h : s.writeRm32 d v = .error f) :
    IsDataFault f := by
  rw [writeRm32_eq] at h
  cases d with
  | reg r => simp at h
  | mem m =>
    simp only at h
    split at h
    · simp at h
    · next hb =>
      simp only [Except.error.injEq] at h
      exact ⟨_, _, _, h.symm, by decide, Nat.lt_of_not_le hb⟩

theorem writeRm8_error {d : Rm8} {v : Byte} {f : Fault} (h : s.writeRm8 d v = .error f) :
    IsDataFault f := by
  rw [writeRm8_eq] at h
  cases d with
  | reg r => simp at h
  | mem m =>
    simp only at h
    split at h
    · simp at h
    · next hb =>
      simp only [Except.error.injEq] at h
      exact ⟨_, _, _, h.symm, by decide, Nat.lt_of_not_le hb⟩

/-! ## Frames of the stores -/

/-- The state a four-byte store leaves stores its value's bytes there and nothing else. -/
theorem storedAt_write32 (s : State) (a : Nat) (v : Word) {t : State}
    (ht : t.mem = Memory.write32 s.mem a v) : StoredAt a (leBytes v) s t := by
  intro b
  rw [ht, Memory.read_write32]
  by_cases h : a ≤ b ∧ b - a < (leBytes v).length
  · have hl : b - a < 4 := h.2
    rw [dif_pos h, if_pos (by omega)]
    have : ∀ k, (hk : k < 4) → byteOf v k = (leBytes v)[k]'hk := by
      intro k hk
      match k with
      | 0 | 1 | 2 | 3 => rfl
    exact this _ hl
  · have hl : ¬(a ≤ b ∧ b - a < 4) := h
    rw [dif_neg h, if_neg (by omega)]

/-- The state a one-byte store leaves stores its byte there and nothing else. -/
theorem storedAt_write (s : State) (a : Nat) (v : Byte) {t : State}
    (ht : t.mem = Memory.write s.mem a v) : StoredAt a [v] s t := by
  intro b
  rw [ht, Memory.read_write]
  by_cases h : b = a
  · subst h; simp
  · rw [if_neg h, dif_neg]
    simp only [List.length_cons, List.length_nil]
    omega

/-- A view's write changes no bit outside the view. -/
theorem viewWritten_setReg8 (s : State) (i : Reg8) (v : Byte) {t : State}
    (ht : t.regs = s.regs.set8 i v) : ViewWritten i v s t := by
  refine ⟨by simp [State.reg8, ht, Regs.get8_set8], fun q k hk => ?_⟩
  simp only [State.reg, ht, Regs.get_set8]
  by_cases hq : q = viewReg i
  · subst hq
    rw [if_pos rfl, insertView_bit, if_neg]
    exact fun hc => hk ⟨rfl, hc⟩
  · rw [if_neg hq]

/-- A register's write changes no other register. -/
theorem regWritten_setReg (s : State) (r : Reg32) (v : Word) {t : State}
    (ht : t.regs = s.regs.set r v) : RegWritten r v s t := by
  intro q
  simp only [State.reg, ht, Regs.get_set]

end Sys2Proof.Machine
end

