-- ==== Sys2Proof/Laws/PerInstr.lean ====
section
/-! SUPPORT. Facts about every instruction as syntax, one lemma per constructor. EncodeLength: an
instruction's encoding is as long as 30_encoding.md R83 says, computed there from the form. -/

namespace Sys2Proof.Laws.EncodeLength

/-- The encoding of `i` has the length of R83's table. -/
def Statement (i : Instr) : Prop := (encode i).length = i.length

theorem memRef (reg : BitVec 3) (m : MemRef) : (m.encode reg).length = 1 + m.dispLen := by
  cases m <;> rfl

theorem rm32 (reg : BitVec 3) (d : Rm32) : (d.encode reg).length = 1 + d.dispLen := by
  cases d with
  | reg r => rfl
  | mem m => exact memRef reg m

theorem rm8 (reg : BitVec 3) (d : Rm8) : (d.encode reg).length = 1 + d.dispLen := by
  cases d with
  | reg r => rfl
  | mem m => exact memRef reg m

theorem movR8Imm (dst : Reg8) (imm : Byte) : Statement (.movR8Imm dst imm) := rfl

theorem movR32Imm (dst : Reg32) (imm : Word) : Statement (.movR32Imm dst imm) := rfl

theorem movRm32Imm (dst : Rm32) (imm : Word) : Statement (.movRm32Imm dst imm) := by
  simp [Statement, encode, Instr.length, rm32]
  omega

theorem movR8Rm8 (dst : Reg8) (src : Rm8) : Statement (.movR8Rm8 dst src) := by
  simp [Statement, encode, Instr.length, rm8]
  omega

theorem movR32Rm32 (dst : Reg32) (src : Rm32) : Statement (.movR32Rm32 dst src) := by
  simp [Statement, encode, Instr.length, rm32]
  omega

theorem movRm8R8 (dst : Rm8) (src : Reg8) : Statement (.movRm8R8 dst src) := by
  simp [Statement, encode, Instr.length, rm8]
  omega

theorem movRm32R32 (dst : Rm32) (src : Reg32) : Statement (.movRm32R32 dst src) := by
  simp [Statement, encode, Instr.length, rm32]
  omega

theorem addRm32R32 (dst : Rm32) (src : Reg32) : Statement (.addRm32R32 dst src) := by
  simp [Statement, encode, Instr.length, rm32]
  omega

theorem addRm32Imm8 (dst : Rm32) (imm : Byte) : Statement (.addRm32Imm8 dst imm) := by
  simp [Statement, encode, Instr.length, rm32]
  omega

theorem subRm32Imm8 (dst : Rm32) (imm : Byte) : Statement (.subRm32Imm8 dst imm) := by
  simp [Statement, encode, Instr.length, rm32]
  omega

theorem cmpRm32Imm8 (lhs : Rm32) (imm : Byte) : Statement (.cmpRm32Imm8 lhs imm) := by
  simp [Statement, encode, Instr.length, rm32]
  omega

theorem cmpR32Rm32 (lhs : Reg32) (rhs : Rm32) : Statement (.cmpR32Rm32 lhs rhs) := by
  simp [Statement, encode, Instr.length, rm32]
  omega

theorem cmpAlImm8 (imm : Byte) : Statement (.cmpAlImm8 imm) := rfl

theorem cmpEaxImm32 (imm : Word) : Statement (.cmpEaxImm32 imm) := rfl

theorem incR32 (dst : Reg32) : Statement (.incR32 dst) := rfl

theorem incRm32 (dst : Rm32) : Statement (.incRm32 dst) := by
  simp [Statement, encode, Instr.length, rm32]
  omega

theorem pushR32 (src : Reg32) : Statement (.pushR32 src) := rfl

theorem pushImm8 (imm : Byte) : Statement (.pushImm8 imm) := rfl

theorem pushImm32 (imm : Word) : Statement (.pushImm32 imm) := rfl

theorem popR32 (dst : Reg32) : Statement (.popR32 dst) := rfl

theorem jmpRel8 (rel : Byte) : Statement (.jmpRel8 rel) := rfl

theorem jmpRel32 (rel : Word) : Statement (.jmpRel32 rel) := rfl

theorem jo (rel : Byte) : Statement (.jo rel) := rfl

theorem jno (rel : Byte) : Statement (.jno rel) := rfl

theorem jc (rel : Byte) : Statement (.jc rel) := rfl

theorem jnc (rel : Byte) : Statement (.jnc rel) := rfl

theorem jz (rel : Byte) : Statement (.jz rel) := rfl

theorem jnz (rel : Byte) : Statement (.jnz rel) := rfl

theorem js (rel : Byte) : Statement (.js rel) := rfl

theorem jns (rel : Byte) : Statement (.jns rel) := rfl

theorem jl (rel : Byte) : Statement (.jl rel) := rfl

theorem jle (rel : Byte) : Statement (.jle rel) := rfl

theorem callRel32 (rel : Word) : Statement (.callRel32 rel) := rfl

theorem ret : Statement (.ret) := rfl

theorem leave : Statement (.leave) := rfl

theorem inAlDx : Statement (.inAlDx) := rfl

theorem outDxAl : Statement (.outDxAl) := rfl

theorem intImm8 (vec : Byte) : Statement (.intImm8 vec) := rfl

end Sys2Proof.Laws.EncodeLength
end

