-- ==== Sys2Proof/Laws/Step.lean ====
section
/-! SUPPORT. What a step can do, said once; the bytes a fetch sees; and that no update of the machine
leaves the canonical form of memory. -/

namespace Sys2Proof.Machine

variable {s t : State}

/-- A step that answers a next state is one of three things: the exit at or beyond MEM_SIZE, the halt
at an unregistered opcode, or a decoded instruction's meaning and the look at address zero
(30_encoding.md R76). -/
theorem step_cases (h : step s = .next t) :
    s.run = .running ∧
    ((Config.memSize ≤ s.eip.toNat ∧ t = s.exitOutOfRange) ∨
     (s.eip.toNat < Config.memSize ∧ ∃ op, decode s.codeBytes = .error (.unimplementedOpcode op) ∧
        t = s.traceFetch.raiseOpcode op) ∨
     (s.eip.toNat < Config.memSize ∧ ∃ i rest u, decode s.codeBytes = .ok (i, rest) ∧
        exec i s.traceFetch = .next u ∧ t = u.haltAtZero)) := by
  unfold step at h
  split at h
  · next hr =>
    refine ⟨hr, ?_⟩
    split at h
    · next hm =>
      split at h
      · next i rest hd =>
        cases he : exec i s.traceFetch with
        | next u =>
          rw [he] at h
          simp only [afterHandler_next, Host.Outcome.next.injEq] at h
          exact .inr (.inr ⟨hm, i, rest, u, hd, he, h.symm⟩)
        | fault f => rw [he] at h; simp at h
        | refused r => rw [he] at h; simp at h
      · next e hd =>
        cases e with
        | unimplementedOpcode op =>
          simp only [State.reject, Host.Outcome.next.injEq] at h
          exact .inr (.inl ⟨hm, op, hd, h.symm⟩)
        | unimplementedForm op mod reg rm => simp [State.reject, raise] at h
        | truncated off n => simp [State.reject, raise] at h
    · next hm =>
      simp only [Host.Outcome.next.injEq] at h
      exact .inl ⟨by omega, h.symm⟩
  all_goals simp [raise] at h

/-- A running step below MEM_SIZE whose bytes decode is the decoded instruction's meaning. -/
theorem step_decoded {i : Instr} {rest : List Byte} (hr : s.run = .running)
    (hm : s.eip.toNat < Config.memSize) (hd : decode s.codeBytes = .ok (i, rest)) :
    step s = afterHandler (exec i s.traceFetch) := by
  unfold step
  simp only [hr, if_pos hm, hd]

/-- A running step below MEM_SIZE whose bytes do not decode is the rejection's. -/
theorem step_rejected {e : Reject} (hr : s.run = .running)
    (hm : s.eip.toNat < Config.memSize) (hd : decode s.codeBytes = .error e) :
    step s = s.traceFetch.reject e := by
  unfold step
  simp only [hr, if_pos hm, hd]

/-- A running step at or beyond MEM_SIZE is the out-of-range exit. -/
theorem step_outOfRange (hr : s.run = .running) (hm : Config.memSize ≤ s.eip.toNat) :
    step s = .next s.exitOutOfRange := by
  unfold step
  simp only [hr, if_neg (show ¬ s.eip.toNat < Config.memSize by omega)]

/-- The first byte the decoder sees is the byte at `eip`. -/
theorem codeBytes_cons (hm : s.eip.toNat < Config.memSize) :
    ∃ rest, s.codeBytes = Memory.read s.mem s.eip.toNat :: rest := by
  have : ∃ n, min Config.maxInstrLen (Config.memSize - s.eip.toNat) = n + 1 := by
    refine ⟨min Config.maxInstrLen (Config.memSize - s.eip.toNat) - 1, ?_⟩
    have : Config.maxInstrLen = 10 := rfl
    omega
  obtain ⟨n, hn⟩ := this
  exact ⟨Memory.bytes s.mem (s.eip.toNat + 1) n, by rw [State.codeBytes, hn]; rfl⟩

/-- The decoder sees ten bytes, or as many as memory still has. -/
theorem codeBytes_length (s : State) :
    s.codeBytes.length = min Config.maxInstrLen (Config.memSize - s.eip.toNat) :=
  Memory.bytes_length _ _ _

/-- The `k`-th byte the decoder sees is the byte at `eip + k`. -/
theorem codeBytes_get {k : Nat} (h : k < s.codeBytes.length) :
    s.codeBytes[k]? = some (Memory.read s.mem (s.eip.toNat + k)) := by
  rw [codeBytes_length] at h
  exact Memory.bytes_get _ _ _ _ h

/-- `State.reset` is the launch with the default parameters and no image. -/
theorem launch_default : State.launch defaultLaunch = some State.reset := by
  unfold State.launch
  rw [if_pos (by decide)]
  rfl

end Sys2Proof.Machine
end

