-- ==== Sys2Proof/Laws/Run.lean ====
section
/-! SUPPORT. What the host's log holds after a step, and what one unit of fuel does, so that no proof
unfolds the executor. -/

namespace Sys2Proof.Machine

variable {s t : State} {f : Fault}

/-- After a step to a next state the host's log is that state's. -/
theorem hostLogAfterStep_next (h : step s = .next t) : s.hostLogAfterStep = t.hostLog := by
  simp [State.hostLogAfterStep, h]

/-- Beside a fault the host's log is the one at the fault. -/
theorem hostLogAfterStep_fault (h : step s = .fault f) :
    s.hostLogAfterStep = s.hostLogAtFault f := by
  simp [State.hostLogAfterStep, h]

/-- Fetching an opcode adds its trace line, and nothing where TRACE is off (30_encoding.md R76). -/
theorem traceFetch_hostLog (s : State) :
    s.traceFetch.hostLog =
      s.hostLog ++
        (if Config.trace then [.trace (Memory.read s.mem s.eip.toNat) s.eip] else []) := by
  unfold State.traceFetch
  split <;> simp

/-- An ended run stays as it is, whatever the fuel. -/
theorem runFor_ended (h : s.run ≠ .running) (fuel : Nat) : State.runFor fuel s = .ended s := by
  cases fuel <;> simp [State.runFor, h]

/-- Without fuel a running state is out of fuel. -/
theorem runFor_zero (h : s.run = .running) : State.runFor 0 s = .outOfFuel s := by
  simp [State.runFor, h]

/-- A step that answers a next state uses one unit of fuel. -/
theorem runFor_next (h : step s = .next t) (fuel : Nat) :
    State.runFor (fuel + 1) s = State.runFor fuel t := by
  simp [State.runFor, (step_cases h).1, h]

/-- A step that faults ends the run. -/
theorem runFor_fault (hr : s.run = .running) (h : step s = .fault f) (fuel : Nat) :
    State.runFor (fuel + 1) s = .faulted f s.hostLogAfterStep := by
  simp [State.runFor, hr, h]

end Sys2Proof.Machine
end

