-- ==== Sys2Proof/Tests/Slice0.lean ====
section
/-! SUPPORT. The model's own tests. Every expected value is from 95_test_vectors.md (the id stands in
the comment) or worked out by hand from a rule; each test is one step on a small state. The witnesses
at the end show a concrete input that meets the hypotheses of each statement that has some. -/

namespace Sys2Proof.Tests

open Sys2Proof.Machine

/-! ## Helpers -/

/-- What a next state shows. -/
def after {α : Type} (r : Result) (f : State → α) : Option α :=
  match r with
  | .next t => some (f t)
  | .fault _ => none
  | .refused _ => none

/-- The fault a result is. -/
def faultOf (r : Result) : Option Fault :=
  match r with
  | .next _ => none
  | .fault f => some f
  | .refused _ => none

theorem next_of_after {α : Type} {r : Result} {f : State → α} {v : α} (h : after r f = some v) :
    ∃ t, r = .next t ∧ f t = v := by
  cases r with
  | next t => exact ⟨t, rfl, by simpa [after] using h⟩
  | fault _ => simp [after] at h
  | refused _ => simp [after] at h

theorem fault_of_faultOf {r : Result} {f : Fault} (h : faultOf r = some f) : r = .fault f := by
  cases r with
  | next _ => simp [faultOf] at h
  | fault g => simp only [faultOf, Option.some.injEq] at h; rw [h]
  | refused _ => simp [faultOf] at h

/-- Bytes stored at an address. -/
def put (a : Nat) (bs : List Byte) (s : State) : State := { s with mem := Memory.place s.mem a bs }

/-- The spec's start state (95_test_vectors.md, Conventions) with code at 0x7C00. -/
def code (bs : List Byte) (s : State := State.reset) : State := put 0x7C00 bs s

/-- Four bytes of memory. -/
def mem4 (a : Nat) (s : State) : List Byte := Memory.bytes s.mem a 4

/-! ## WellFormed: one ill-formed term for each check -/

theorem test_wf_base_esp : (Instr.movR32Rm32 .eax (.mem (.base .esp))).wf = false := by decide
theorem test_wf_base_ebp : (Instr.addRm32R32 (.mem (.base .ebp)) .eax).wf = false := by decide
theorem test_wf_disp8_esp : (Instr.subRm32Imm8 (.mem (.disp8 .esp 8)) 1).wf = false := by decide
theorem test_wf_disp32_esp : (Instr.incRm32 (.mem (.disp32 .esp 8))).wf = false := by decide
theorem test_wf_byte_operands :
    (Instr.movR8Rm8 .al (.mem (.base .esp))).wf = false ∧
    (Instr.movRm8R8 (.mem (.disp8 .esp 0)) .al).wf = false := by decide
theorem test_wf_every_rm_form :
    (Instr.movRm32Imm (.mem (.base .esp)) 0).wf = false ∧
    (Instr.movRm32R32 (.mem (.base .ebp)) .eax).wf = false ∧
    (Instr.addRm32Imm8 (.mem (.disp8 .esp 0)) 0).wf = false ∧
    (Instr.cmpRm32Imm8 (.mem (.disp32 .esp 0)) 0).wf = false ∧
    (Instr.cmpR32Rm32 .eax (.mem (.base .esp))).wf = false := by decide
theorem test_wf_accepts :
    (Instr.movR32Rm32 .eax (.mem (.disp8 .ebp 8))).wf = true ∧
    (Instr.movR32Rm32 .eax (.mem (.abs 0))).wf = true ∧
    (Instr.movR32Rm32 .eax (.reg .esp)).wf = true := by decide

/-! ## Decoding: a word for every constructor -/

/-- Bit by bit from 30_encoding.md R63: ModRM is mod, reg, rm from the top. -/
theorem test_decode_bits :
    decode [0b00000001#8, 0b11#2 ++ 0b011#3 ++ 0b000#3] = .ok (.addRm32R32 (.reg .eax) .ebx, []) ∧
    decode [0b10001011#8, 0b01#2 ++ 0b000#3 ++ 0b101#3, 0b00001000#8] =
      .ok (.movR32Rm32 .eax (.mem (.disp8 .ebp 8)), []) ∧
    decode [0b01010#5 ++ 0b101#3] = .ok (.pushR32 .ebp, []) ∧
    decode [0b01110101#8, 0b00000010#8] = .ok (.jnz 2, []) ∧
    decode [0b11101110#8] = .ok (.outDxAl, []) := by decide

/-- M1, M4, M5, M6, M8, M11, M12, M17, M18, M20. -/
theorem test_decode_move :
    decode [0xB4, 0x12] = .ok (.movR8Imm .ah 0x12, []) ∧
    decode [0xBC, 0x00, 0x80, 0x00, 0x00] = .ok (.movR32Imm .esp 0x8000, []) ∧
    decode [0xC7, 0x05, 0x00, 0x90, 0x00, 0x00, 0x78, 0x56, 0x34, 0x12] =
      .ok (.movRm32Imm (.mem (.abs 0x9000)) 0x12345678, []) ∧
    decode [0xC7, 0xC0, 0xEF, 0xBE, 0xAD, 0xDE] = .ok (.movRm32Imm (.reg .eax) 0xDEADBEEF, []) ∧
    decode [0x8A, 0xC4] = .ok (.movR8Rm8 .al (.reg .ah), []) ∧
    decode [0x8B, 0x45, 0xFC] = .ok (.movR32Rm32 .eax (.mem (.disp8 .ebp 0xFC)), []) ∧
    decode [0x8B, 0x80, 0x00, 0x01, 0x00, 0x00] =
      .ok (.movR32Rm32 .eax (.mem (.disp32 .eax 0x100)), []) ∧
    decode [0x88, 0x25, 0x00, 0x90, 0x00, 0x00] = .ok (.movRm8R8 (.mem (.abs 0x9000)) .ah, []) ∧
    decode [0x88, 0xC7] = .ok (.movRm8R8 (.reg .bh) .al, []) ∧
    decode [0x89, 0x18] = .ok (.movRm32R32 (.mem (.base .eax)) .ebx, []) := by decide

/-- A1, A5, A7, A11, A16, A21, A25, A28, A31. -/
theorem test_decode_arith :
    decode [0x01, 0xD8] = .ok (.addRm32R32 (.reg .eax) .ebx, []) ∧
    decode [0x83, 0xC4, 0x04] = .ok (.addRm32Imm8 (.reg .esp) 4, []) ∧
    decode [0x83, 0xE8, 0x07] = .ok (.subRm32Imm8 (.reg .eax) 7, []) ∧
    decode [0x83, 0xF9, 0x05] = .ok (.cmpRm32Imm8 (.reg .ecx) 5, []) ∧
    decode [0x3B, 0xC3] = .ok (.cmpR32Rm32 .eax (.reg .ebx), []) ∧
    decode [0x3C, 0x41] = .ok (.cmpAlImm8 0x41, []) ∧
    decode [0x3D, 0x01, 0x00, 0x00, 0x00] = .ok (.cmpEaxImm32 1, []) ∧
    decode [0x41] = .ok (.incR32 .ecx, []) ∧
    decode [0xFF, 0x05, 0x00, 0x90, 0x00, 0x00] = .ok (.incRm32 (.mem (.abs 0x9000)), []) := by
  decide

/-- S-1, S-3, S-5, S-6. -/
theorem test_decode_stack :
    decode [0x55] = .ok (.pushR32 .ebp, []) ∧
    decode [0x6A, 0x07] = .ok (.pushImm8 7, []) ∧
    decode [0x68, 0x78, 0x56, 0x34, 0x12] = .ok (.pushImm32 0x12345678, []) ∧
    decode [0x58] = .ok (.popR32 .eax, []) := by decide

/-- C1, C4, C19, C21, C24. -/
theorem test_decode_control :
    decode [0xEB, 0x05] = .ok (.jmpRel8 5, []) ∧
    decode [0xE9, 0xFB, 0x83, 0xFF, 0xFF] = .ok (.jmpRel32 0xFFFF83FB, []) ∧
    decode [0xE8, 0x08, 0x00, 0x00, 0x00] = .ok (.callRel32 8, []) ∧
    decode [0xC3] = .ok (.ret, []) ∧
    decode [0xC9] = .ok (.leave, []) := by decide

/-- C6 to C18. -/
theorem test_decode_jcc :
    decode [0x70, 0x10] = .ok (.jo 0x10, []) ∧
    decode [0x71, 0x10] = .ok (.jno 0x10, []) ∧
    decode [0x72, 0xFE] = .ok (.jc 0xFE, []) ∧
    decode [0x73, 0xF0] = .ok (.jnc 0xF0, []) ∧
    decode [0x74, 0x05] = .ok (.jz 5, []) ∧
    decode [0x75, 0x02] = .ok (.jnz 2, []) ∧
    decode [0x78, 0x7F] = .ok (.js 0x7F, []) ∧
    decode [0x79, 0x80] = .ok (.jns 0x80, []) ∧
    decode [0x7C, 0xF8] = .ok (.jl 0xF8, []) ∧
    decode [0x7E, 0x04] = .ok (.jle 4, []) := by decide

/-- I1, I3, I5. -/
theorem test_decode_io :
    decode [0xEC] = .ok (.inAlDx, []) ∧
    decode [0xEE] = .ok (.outDxAl, []) ∧
    decode [0xCD, 0x10] = .ok (.intImm8 0x10, []) := by decide

/-- M7, M15, A14, A15, A33, L2, L3, C26. -/
theorem test_decode_rejects :
    decode [0xC7, 0xC8, 0x01, 0x00, 0x00, 0x00] = .error (.unimplementedForm 0xC7 3 1 0) ∧
    decode [0x8B, 0x04, 0x24] = .error (.unimplementedForm 0x8B 0 0 4) ∧
    decode [0x83, 0xC8, 0x01] = .error (.unimplementedForm 0x83 3 1 0) ∧
    decode [0x83, 0x04, 0x24, 0x05] = .error (.unimplementedForm 0x83 0 0 4) ∧
    decode [0xFF, 0x08] = .error (.unimplementedForm 0xFF 0 1 0) ∧
    decode [0x90] = .error (.unimplementedOpcode 0x90) ∧
    decode [0x66] = .error (.unimplementedOpcode 0x66) ∧
    decode [0x76, 0x00] = .error (.unimplementedOpcode 0x76) := by decide

/-- The byte after the instruction is left over; a missing one is named (30_encoding.md R71, R45). -/
theorem test_decode_rest :
    decode [0xB0, 0x41, 0xB4, 0x12] = .ok (.movR8Imm .al 0x41, [0xB4, 0x12]) ∧
    decode [0xB8, 0x01] = .error (.truncated 1 4) ∧
    decode [0x8B] = .error (.truncated 1 1) ∧
    decode [0x8B, 0x05, 0x00] = .error (.truncated 2 4) := by decide

/-- The opcode table's numbering: the first byte is the least significant. -/
theorem test_decodeTableWord :
    decodeTableWord 8 0x01 = some (.addRm32R32 (.mem (.base .eax)) .eax) ∧
    decodeTableWord 16 0xD801 = some (.addRm32R32 (.reg .eax) .ebx) ∧
    decodeTableWord 16 0x2883 = some (.subRm32Imm8 (.mem (.base .eax)) 0) ∧
    decodeTableWord 8 0x90 = none := by decide

theorem test_withFetchWord :
    after (step (State.reset.withFetchWord 8 0x42)) (fun t => (t.reg .edx, t.eip)) =
      some (1, 0x7C01) := by decide

/-! ## Steps: the move family -/

/-- M1. -/
theorem test_movR8Imm :
    after (step (code [0xB4, 0x12] (State.reset.setReg .eax 0x11223344)))
      (fun t => (t.reg .eax, t.eip)) = some (0x11221244, 0x7C02) := by decide

/-- S4, one of its rows. -/
theorem test_movR32Imm :
    after (step (code [0xBF, 0x78, 0x56, 0x34, 0x12])) (fun t => (t.reg .edi, t.eip)) =
      some (0x12345678, 0x7C05) := by decide

/-- M5. -/
theorem test_movRm32Imm :
    after (step (code [0xC7, 0x05, 0x00, 0x90, 0x00, 0x00, 0x78, 0x56, 0x34, 0x12]))
      (fun t => (mem4 0x9000 t, t.eip)) = some ([0x78, 0x56, 0x34, 0x12], 0x7C0A) := by decide

/-- M8, M9. -/
theorem test_movR8Rm8 :
    after (step (code [0x8A, 0xC4] (State.reset.setReg .eax 0x1234)))
      (fun t => (t.reg .eax, t.eip)) = some (0x1212, 0x7C02) ∧
    after (step (code [0x8A, 0x05, 0x00, 0x90, 0x00, 0x00]
        (put 0x9000 [0x5A] (State.reset.setReg .eax 0xFFFFFFFF))))
      (fun t => (t.reg .eax, t.eip)) = some (0xFFFFFF5A, 0x7C06) := by decide

/-- M11, M12. -/
theorem test_movR32Rm32 :
    after (step (code [0x8B, 0x45, 0xFC]
        (put 0x9000 [1, 2, 3, 4] (State.reset.setReg .ebp 0x9004))))
      (fun t => (t.reg .eax, t.eip)) = some (0x04030201, 0x7C03) ∧
    after (step (code [0x8B, 0x80, 0x00, 0x01, 0x00, 0x00]
        (put 0x9000 [0xAA, 0xBB, 0xCC, 0xDD] (State.reset.setReg .eax 0x8F00))))
      (fun t => (t.reg .eax, t.eip)) = some (0xDDCCBBAA, 0x7C06) := by decide

/-- M13, M14: the last four bytes of memory, and one further. -/
theorem test_movR32Rm32_edge :
    after (step (code [0x8B, 0x05, 0xFC, 0xFF, 0x0F, 0x00]
        (put 0xFFFFC [0x11, 0x22, 0x33, 0x44] State.reset)))
      (fun t => t.reg .eax) = some 0x44332211 ∧
    faultOf (step (code [0x8B, 0x05, 0xFD, 0xFF, 0x0F, 0x00])) =
      some (.outOfBounds 0xFFFFD 4 .read) := by decide

/-- M17, M18. -/
theorem test_movRm8R8 :
    after (step (code [0x88, 0x25, 0x00, 0x90, 0x00, 0x00]
        (put 0x9000 [0x11, 0x22, 0x33, 0x44] (State.reset.setReg .eax 0xAB00))))
      (fun t => (mem4 0x9000 t, t.eip)) = some ([0xAB, 0x22, 0x33, 0x44], 0x7C06) ∧
    after (step (code [0x88, 0xC7] (State.reset.setReg .eax 0xEE))) (fun t => t.reg .ebx) =
      some 0xEE00 := by decide

/-- M19, M20. -/
theorem test_movRm32R32 :
    after (step (code [0x89, 0xE5] (State.reset.setReg .esp 0x7BF4)))
      (fun t => (t.reg .ebp, t.eip)) = some (0x7BF4, 0x7C02) ∧
    after (step (code [0x89, 0x18]
        ((State.reset.setReg .eax 0x9000).setReg .ebx 0x01020304)))
      (fun t => mem4 0x9000 t) = some [4, 3, 2, 1] := by decide

/-! ## Steps: arithmetic and compare -/

/-- The start flags of the ADD and INC rows: 1 0 1 0. -/
def marked : State := State.reset.setFlags ⟨true, false, true, false⟩

/-- A2, A4. -/
theorem test_addRm32R32 :
    after (step (code [0x01, 0xD8] ((marked.setReg .eax 0xFFFFFFFF).setReg .ebx 1)))
      (fun t => (t.reg .eax, t.flags, t.eip)) =
      some (0, ⟨true, false, true, false⟩, 0x7C02) ∧
    after (step (code [0x01, 0x05, 0x00, 0x90, 0x00, 0x00]
        (put 0x9000 [3] (State.reset.setReg .eax 2))))
      (fun t => (mem4 0x9000 t, t.eip)) = some ([5, 0, 0, 0], 0x7C06) := by decide

/-- A6, with flags 1 0 1 0. -/
theorem test_addRm32Imm8 :
    after (step (code [0x83, 0xC0, 0xFF] (marked.setReg .eax 1)))
      (fun t => (t.reg .eax, t.flags, t.eip)) =
      some (0, ⟨true, false, true, false⟩, 0x7C03) := by decide

/-- A7, A9. -/
theorem test_subRm32Imm8 :
    after (step (code [0x83, 0xE8, 0x07] (State.reset.setReg .eax 5)))
      (fun t => (t.reg .eax, t.flags, t.eip)) =
      some (0xFFFFFFFE, ⟨true, false, true, false⟩, 0x7C03) ∧
    after (step (code [0x83, 0xE8, 0x01] (State.reset.setReg .eax 0x80000000)))
      (fun t => (t.reg .eax, t.flags)) =
      some (0x7FFFFFFF, ⟨false, false, false, true⟩) := by decide

/-- A11, A13. -/
theorem test_cmpRm32Imm8 :
    after (step (code [0x83, 0xF9, 0x05] (State.reset.setReg .ecx 5)))
      (fun t => (t.reg .ecx, t.flags, t.eip)) =
      some (5, ⟨false, true, false, false⟩, 0x7C03) ∧
    after (step (code [0x83, 0xF8, 0xFF] (State.reset.setReg .eax 0xFFFFFFFF)))
      (fun t => t.flags) = some ⟨false, true, false, false⟩ := by decide

/-- A16, A17. -/
theorem test_cmpR32Rm32 :
    after (step (code [0x3B, 0xC3] ((State.reset.setReg .eax 0x7FFFFFFF).setReg .ebx 0xFFFFFFFF)))
      (fun t => (t.flags, t.eip)) = some (⟨true, false, true, true⟩, 0x7C02) ∧
    after (step (code [0x3B, 0xC3] (State.reset.setReg .ebx 1))) (fun t => t.flags) =
      some ⟨true, false, true, false⟩ := by decide

/-- A22, A24. -/
theorem test_cmpAlImm8 :
    after (step (code [0x3C, 0x01] (State.reset.setReg .eax 0x80)))
      (fun t => (t.flags, t.eip)) = some (⟨false, false, false, false⟩, 0x7C02) ∧
    after (step (code [0x3C, 0x20] (State.reset.setReg .eax 0xFFFFFF10))) (fun t => t.flags) =
      some ⟨true, false, true, false⟩ := by decide

/-- A26, A27. -/
theorem test_cmpEaxImm32 :
    after (step (code [0x3D, 0x01, 0x00, 0x00, 0x00] (State.reset.setReg .eax 0x80000000)))
      (fun t => (t.flags, t.eip)) = some (⟨false, false, false, true⟩, 0x7C05) ∧
    after (step (code [0x3D, 0x00, 0x00, 0x00, 0x00] (State.reset.setReg .eax 0xFFFFFFFF)))
      (fun t => t.flags) = some ⟨false, false, true, false⟩ := by decide

/-- A29. -/
theorem test_incR32 :
    after (step (code [0x40] (marked.setReg .eax 0xFFFFFFFF)))
      (fun t => (t.reg .eax, t.flags, t.eip)) =
      some (0, ⟨true, false, true, false⟩, 0x7C01) := by decide

/-- A31, A32. -/
theorem test_incRm32 :
    after (step (code [0xFF, 0x05, 0x00, 0x90, 0x00, 0x00]
        (put 0x9000 [0xFF, 0xFF, 0xFF, 0xFF] marked)))
      (fun t => (mem4 0x9000 t, t.flags, t.eip)) =
      some ([0, 0, 0, 0], ⟨true, false, true, false⟩, 0x7C06) ∧
    after (step (code [0xFF, 0xC3] (State.reset.setReg .ebx 9))) (fun t => (t.reg .ebx, t.eip)) =
      some (10, 0x7C02) := by decide

/-- S2. -/
theorem test_subFlags :
    subFlags 0 1 = ⟨true, false, true, false⟩ ∧
    subFlags 0x7FFFFFFF 0xFFFFFFFF = ⟨true, false, true, true⟩ ∧
    subFlags 5 5 = ⟨false, true, false, false⟩ := by decide

/-! ## Steps: the stack family -/

/-- S-2, and S3's push. -/
theorem test_pushR32 :
    after (step (code [0x54])) (fun t => (t.reg .esp, mem4 0x7BFC t, t.eip)) =
      some (0x7BFC, [0x00, 0x7C, 0x00, 0x00], 0x7C01) ∧
    after (step (code [0x53] (State.reset.setReg .ebx 0xCAFEF00D)))
      (fun t => (t.reg .esp, mem4 0x7BFC t)) =
      some (0x7BFC, [0x0D, 0xF0, 0xFE, 0xCA]) := by decide

/-- S-8, S-9. -/
theorem test_pushR32_bounds :
    faultOf (step (code [0x50] (State.reset.setReg .esp 0))) =
      some (.outOfBounds 0xFFFFFFFC 4 .write) ∧
    faultOf (step (code [0x50] (State.reset.setReg .esp 0x100004))) =
      some (.outOfBounds 0x100000 4 .write) := by decide

/-- S-3: the value is the same under both settings, so the widening is the only open thing. -/
theorem test_pushImm8 :
    after (exec (.pushImm8 7) State.reset) (fun t => (t.reg .esp, t.eip)) =
      some (0x7BFC, 0x7C02) ∧
    widenPushImm8 7 = 7 := by
  refine ⟨by decide, ?_⟩
  unfold widenPushImm8
  split <;> decide

/-- S-5. -/
theorem test_pushImm32 :
    after (step (code [0x68, 0x78, 0x56, 0x34, 0x12]))
      (fun t => (t.reg .esp, mem4 0x7BFC t, t.eip)) =
      some (0x7BFC, [0x78, 0x56, 0x34, 0x12], 0x7C05) := by decide

/-- S-6, S-7. -/
theorem test_popR32 :
    after (step (code [0x58] (put 0x7BF4 [0x44, 0x33, 0x22, 0x11] (State.reset.setReg .esp 0x7BF4))))
      (fun t => (t.reg .eax, t.reg .esp, t.eip)) = some (0x11223344, 0x7BF8, 0x7C01) ∧
    after (step (code [0x5C] (put 0x7BF4 [0x00, 0x80, 0x00, 0x00] (State.reset.setReg .esp 0x7BF4))))
      (fun t => t.reg .esp) = some 0x8000 := by decide

/-- S-10, S-11. -/
theorem test_popR32_bounds :
    after (step (code [0x58] (put 0xFFFFC [1] (State.reset.setReg .esp 0xFFFFC))))
      (fun t => (t.reg .eax, t.reg .esp)) = some (1, 0x100000) ∧
    faultOf (step (code [0x58] (State.reset.setReg .esp 0xFFFFD))) =
      some (.outOfBounds 0xFFFFD 4 .read) := by decide

/-! ## Steps: control transfer -/

/-- The reset state with four flags, CF ZF SF OF. -/
def flagged (c z s o : Bool) : State := State.reset.setFlags ⟨c, z, s, o⟩

/-- C1, C3. -/
theorem test_jmpRel8 :
    after (step (put 0x7C10 [0xEB, 0x05] (State.reset.jumpTo 0x7C10))) (fun t => t.eip) =
      some 0x7C17 ∧
    after (step (put 0x10 [0xEB, 0x80] (State.reset.jumpTo 0x10))) (fun t => (t.eip, t.run)) =
      some (0xFFFFFF92, .running) := by decide

/-- C4, C5. -/
theorem test_jmpRel32 :
    after (step (code [0xE9, 0xFB, 0x83, 0xFF, 0xFF])) (fun t => (t.eip, t.run)) =
      some (0, .haltedNormal) ∧
    after (step (code [0xE9, 0x00, 0x00, 0x00, 0x00])) (fun t => (t.eip, t.run)) =
      some (0x7C05, .running) := by decide

/-- C6. -/
theorem test_jo :
    after (step (code [0x70, 0x10] (flagged false false false true))) (·.eip) = some 0x7C12 ∧
    after (step (code [0x70, 0x10] (flagged true true true false))) (·.eip) = some 0x7C02 := by
  decide

/-- C7. -/
theorem test_jno :
    after (step (code [0x71, 0x10] (flagged true true true false))) (·.eip) = some 0x7C12 ∧
    after (step (code [0x71, 0x10] (flagged false false false true))) (·.eip) = some 0x7C02 := by
  decide

/-- C8. -/
theorem test_jc :
    after (step (code [0x72, 0xFE] (flagged true false false false))) (·.eip) = some 0x7C00 ∧
    after (step (code [0x72, 0xFE] (flagged false true true true))) (·.eip) = some 0x7C02 := by
  decide

/-- C9. -/
theorem test_jnc :
    after (step (code [0x73, 0xF0] (flagged false true true true))) (·.eip) = some 0x7BF2 ∧
    after (step (code [0x73, 0xF0] (flagged true false false false))) (·.eip) = some 0x7C02 := by
  decide

/-- C10. -/
theorem test_jz :
    after (step (code [0x74, 0x05] (flagged false true false false))) (·.eip) = some 0x7C07 ∧
    after (step (code [0x74, 0x05] (flagged true false true true))) (·.eip) = some 0x7C02 := by
  decide

/-- C11. -/
theorem test_jnz :
    after (step (code [0x75, 0x02] (flagged true false true true))) (·.eip) = some 0x7C04 ∧
    after (step (code [0x75, 0x02] (flagged false true false false))) (·.eip) = some 0x7C02 := by
  decide

/-- C12. -/
theorem test_js :
    after (step (code [0x78, 0x7F] (flagged false false true false))) (·.eip) = some 0x7C81 ∧
    after (step (code [0x78, 0x7F] (flagged true true false true))) (·.eip) = some 0x7C02 := by
  decide

/-- C13. -/
theorem test_jns :
    after (step (code [0x79, 0x80] (flagged true true false true))) (·.eip) = some 0x7B82 ∧
    after (step (code [0x79, 0x80] (flagged false false true false))) (·.eip) = some 0x7C02 := by
  decide

/-- C14, C15. -/
theorem test_jl :
    after (step (code [0x7C, 0xF8] (flagged false false true false))) (·.eip) = some 0x7BFA ∧
    after (step (code [0x7C, 0xF8] (flagged false false true true))) (·.eip) = some 0x7C02 ∧
    after (step (code [0x7C, 0xF8] (flagged false false false true))) (·.eip) = some 0x7BFA := by
  decide

/-- C16, C17, C18. -/
theorem test_jle :
    after (step (code [0x7E, 0x04] (flagged false true false false))) (·.eip) = some 0x7C06 ∧
    after (step (code [0x7E, 0x04] (flagged false false true false))) (·.eip) = some 0x7C06 ∧
    after (step (code [0x7E, 0x04] (flagged false false true true))) (·.eip) = some 0x7C02 := by
  decide

/-- C19. -/
theorem test_callRel32 :
    after (step (put 0x7C02 [0xE8, 0x08, 0x00, 0x00, 0x00]
        ((State.reset.setReg .esp 0x7BFC).jumpTo 0x7C02)))
      (fun t => (t.reg .esp, mem4 0x7BF8 t, t.eip)) =
      some (0x7BF8, [0x07, 0x7C, 0x00, 0x00], 0x7C0F) := by decide

/-- C21, C22. -/
theorem test_ret :
    after (step (code [0xC3] (put 0x7BF8 [0x07, 0x7C] (State.reset.setReg .esp 0x7BF8))))
      (fun t => (t.eip, t.reg .esp, t.run)) = some (0x7C07, 0x7BFC, .running) ∧
    after (step (code [0xC3] (State.reset.setReg .esp 0x7BFC)))
      (fun t => (t.eip, t.reg .esp, t.run)) = some (0, 0x7C00, .haltedNormal) := by decide

/-- C24, C25. -/
theorem test_leave :
    after (step (code [0xC9] ((State.reset.setReg .ebp 0x7BF4).setReg .esp 0x7BF0)))
      (fun t => (t.reg .esp, t.reg .ebp, t.eip)) = some (0x7BF8, 0, 0x7C01) ∧
    faultOf (step (code [0xC9] (State.reset.setReg .ebp 0x100000))) =
      some (.outOfBounds 0x100000 4 .read) := by decide

/-! ## Steps: port I/O and INT -/

/-- I2, with DX the low 16 bits of EDX. -/
theorem test_inAlDx_other_port :
    after (exec .inAlDx ((State.reset.setReg .edx 0x10060).setReg .eax 0xFFFFFFFF))
      (fun t => (t.reg .eax, t.eip, t.hostLog)) =
      some (0xFFFFFF00, 0x7C01, [.portRead 0x60 0]) := by decide

/-- I1: AL is the byte the host supplies, whatever it is. -/
theorem test_inAlDx_console :
    after (exec .inAlDx ((State.reset.setReg .edx 0xABCD03F8).setReg .eax 0x11223344))
      (fun t => (t.reg8 .al, t.consoleReads, t.eip)) =
      some (Config.consoleByte 0, 1, 0x7C01) :=
  congrArg (fun b => some (b, 1, 0x7C01#32)) (Regs.get8_set8 _ .al (Config.consoleByte 0))

/-- I3, I4. -/
theorem test_outDxAl :
    after (exec .outDxAl ((State.reset.setReg .edx 0x10003F8).setReg .eax 0x41))
      (fun t => (t.outputStream, t.hostLog, t.eip)) =
      some ([0x41], [.portWrite 0x3F8 0x41], 0x7C01) ∧
    after (exec .outDxAl ((State.reset.setReg .edx 0x60).setReg .eax 0x41))
      (fun t => t.outputStream) = some [] := by decide

/-- R67: EBP is the base with a displacement and none in the absolute form; disp8 is signed. -/
theorem test_ea :
    MemRef.ea (.disp8 .ebp 0xFC) (State.reset.setReg .ebp 0x9004) = 0x9000 ∧
    MemRef.ea (.abs 0x9000) (State.reset.setReg .ebp 0x9004) = 0x9000 ∧
    MemRef.ea (.disp32 .ebp 0xFFFFFFFF) (State.reset.setReg .ebp 0) = 0xFFFFFFFF := by decide

/-- I5, I6. -/
theorem test_int_video :
    after (exec (.intImm8 0x10) ((State.reset.setReg .eax 0x0E48).setReg .ebx 0xFA))
      (fun t => (t.hostLog, t.eip)) = some ([.biosVideo 0x0E 0x48 0xA], 0x7C02) ∧
    diagnosticOf (.biosVideo 0 0x48 0) = some (.videoNotImplemented 0) := by decide

/-- I7. -/
theorem test_int_unknown :
    after (exec (.intImm8 0x21) State.reset) (fun t => (t.hostLog, t.eip, t.run)) =
      some ([.unknownInterrupt 0x21], 0x7C02, .running) := by decide

/-! ## Steps: the loop -/

/-- L1, L2. -/
theorem test_ends :
    after (step (State.reset.jumpTo 0x100000)) (fun t => (t.run, t.eip)) =
      some (.haltedOutOfRange, 0x100000) ∧
    after (step (code [0x90])) (fun t => (t.run, t.eip, t.reg .esp)) =
      some (.haltedUnimplemented (.opcode 0x90), 0x7C00, 0x7C00) := by decide

/-- L4, L5. -/
theorem test_fetch_bounds :
    faultOf (step (put 0xFFFFE [0xB8] (State.reset.jumpTo 0xFFFFE))) =
      some (.outOfBounds 0xFFFFF 4 .fetch) ∧
    faultOf (step (put 0xFFFFF [0x8B] (State.reset.jumpTo 0xFFFFF))) =
      some (.outOfBounds 0x100000 1 .fetch) := by decide

/-- L6: a start at address 0 is no halt. -/
theorem test_start_at_zero :
    after (step (put 0 [0xB8] (State.reset.jumpTo 0))) (fun t => (t.eip, t.run)) =
      some (5, .running) := by decide

/-- R216, R203: one unit of fuel on `EB FE` runs out, which is no end; on an unregistered byte it
comes to a clean end; on a SIB form to an end that is not clean. -/
theorem test_runFor :
    ((State.runFor 1 (code [0xEB, 0xFE])).isEnd = false ∧
      (State.runFor 1 (code [0xEB, 0xFE])).cleanEnd = false) ∧
    ((State.runFor 1 (code [0x90])).isEnd = true ∧
      (State.runFor 1 (code [0x90])).cleanEnd = true) ∧
    ((State.runFor 1 (code [0x8B, 0x04, 0x24])).isEnd = true ∧
      (State.runFor 1 (code [0x8B, 0x04, 0x24])).cleanEnd = false) := by decide

/-- M7, M15: the run value the two kinds of form fault stand for. -/
theorem test_form_faults :
    faultOf (step (code [0xC7, 0xC8, 0x01])) = some (.unimplementedAddressingForm 0xC7 3 1 0) ∧
    faultOf (step (code [0x8B, 0x04, 0x24])) = some (.unimplementedAddressingForm 0x8B 0 0 4) := by
  decide

/-! ## Witnesses: what meets the hypotheses of the statements, encoding and loop -/

theorem witness_DecodeUndoesEncode :
    (Instr.movRm32Imm (.mem (.disp32 .ebp 0x80000000)) 0xFFFFFFFF).wf = true ∧
    (Instr.movR8Rm8 .bh (.mem (.base .edi))).wf = true := by decide

theorem witness_DecodedBytesReencode :
    decode [0x8B, 0x45, 0x08, 0x90] = .ok (.movR32Rm32 .eax (.mem (.disp8 .ebp 8)), [0x90]) := by
  decide

/-- The SIB byte is the last byte of memory. -/
theorem witness_SibFormsFault :
    let s := put 0xFFFFD [0x8B, 0x44] (State.reset.jumpTo 0xFFFFD)
    s.run = .running ∧ s.eip.toNat + 3 ≤ Config.memSize ∧
    Memory.read s.mem s.eip.toNat ∈
      ([0x01, 0x3B, 0x83, 0x88, 0x89, 0x8A, 0x8B, 0xC7, 0xFF] : List Byte) ∧
    Memory.read s.mem (s.eip.toNat + 1) = 0x44#8 ∧ (0x44#8).extractLsb' 6 2 ≠ 3#2 ∧
    (0x44#8).extractLsb' 0 3 = 4#3 := by decide

theorem witness_UnrecognisedGroupFieldsAreRejected :
    (Rm32.mem (.disp8 .ebp 0x80)).wf = true ∧
    ((0x83#8 = 0x83#8 ∧ 6#3 ∉ [0#3, 5#3, 7#3]) ∧ (0xFF#8 = 0xFF#8 ∧ 7#3 ≠ 0#3) ∧
      (0xC7#8 = 0xC7#8 ∧ 1#3 ≠ 0#3)) := by decide

/-- The second clause: a four-byte displacement of which the last byte is missing, and a one-byte
displacement that is missing. -/
theorem witness_UnrecognisedGroupFieldsAreRejected_cut :
    (Rm32.mem (.abs 0x9000)).wf = true ∧ 0xC7#8 ∈ [0x83#8, 0xFF#8, 0xC7#8] ∧
    1 ≤ 4 ∧ 4 < ((Rm32.mem (.abs 0x9000)).encode 1#3).length ∧
    (Rm32.mem (.disp8 .ebp 8)).wf = true ∧ 1 < ((Rm32.mem (.disp8 .ebp 8)).encode 5#3).length := by
  decide

theorem witness_StepRunsTheDecodedInstruction :
    let s := put 0xFFFFF [0x40] (State.reset.jumpTo 0xFFFFF)
    s.run = .running ∧ s.eip.toNat < Config.memSize ∧
    decode s.codeBytes = .ok (.incR32 .eax, []) := by decide

theorem witness_StepRunsTheInstructionInMemory :
    let s := put 0xFFFFE [0x6A, 0x07] (State.reset.jumpTo 0xFFFFE)
    s.run = .running ∧ (Instr.pushImm8 7).wf = true ∧
    s.eip.toNat + (encode (.pushImm8 7)).length ≤ Config.memSize ∧
    (∀ (k : Nat) (h : k < (encode (.pushImm8 7)).length),
      Memory.read s.mem (s.eip.toNat + k) = (encode (.pushImm8 7))[k]) := by decide

theorem witness_DecodedInstructionsLieInMemory :
    let s := put 0xFFFFE [0x6A, 0x07] (State.reset.jumpTo 0xFFFFE)
    s.eip.toNat < Config.memSize ∧ decode s.codeBytes = .ok (.pushImm8 7, []) := by decide

theorem witness_CutOffInstructionsFaultOnFetch :
    let s := put 0xFFFFE [0xB8] (State.reset.jumpTo 0xFFFFE)
    s.run = .running ∧ s.eip.toNat < Config.memSize ∧
    decode s.codeBytes = .error (.truncated 1 4) := by decide

theorem witness_UnregisteredOpcodeHaltsPrecisely :
    let s := put 0xFFFFF [0x90] (State.reset.jumpTo 0xFFFFF)
    s.run = .running ∧ s.eip.toNat < Config.memSize ∧
    handlerOf (Memory.read s.mem s.eip.toNat) = none := by decide

theorem witness_OutOfRangeFetchEndsTheRun :
    (State.reset.jumpTo 0x100000).run = .running ∧
    Config.memSize ≤ (State.reset.jumpTo 0x100000).eip.toNat ∧
    Config.memSize ≤ (State.reset.jumpTo 0xFFFFFFFF).eip.toNat := by decide

theorem witness_EndedRunsTakeNoStep :
    State.reset.exitOutOfRange.run ≠ .running ∧
    (State.reset.raiseOpcode 0x90).run ≠ .running := by decide

/-- The executor's clauses: a step and a fault from a running state, out of fuel, and an end. -/
theorem witness_EndedRunsTakeNoStep_fuel :
    (code [0x40]).run = .running ∧
    (∃ t, step (code [0x40]) = .next t ∧ t.reg .eax = 1#32) ∧
    step (code [0x8B, 0x04, 0x24]) = .fault (.unimplementedAddressingForm 0x8B 0 0 4) ∧
    State.runFor 0 (code [0x40]) = .outOfFuel (code [0x40]) ∧
    (State.runFor 0 State.reset.exitOutOfRange).isEnd = true :=
  ⟨by decide, next_of_after (by decide), fault_of_faultOf (by decide), runFor_zero (by decide),
    by decide⟩

/-- `EB FE` in the last two bytes of memory. -/
theorem witness_EndedRunsTakeNoStep_hang :
    let s := put 0xFFFFE [0xEB, 0xFE] (State.reset.jumpTo 0xFFFFE)
    s.run = .running ∧ s.eip ≠ 0#32 ∧ s.eip.toNat + 2 ≤ Config.memSize ∧
    Memory.read s.mem s.eip.toNat = 0xEB#8 ∧ Memory.read s.mem (s.eip.toNat + 1) = 0xFE#8 := by
  decide

/-- Each of the three ends of a step happens. -/
theorem witness_StepEndsInANamedWay :
    (code [0x40]).run = .running ∧ (after (step (code [0x40])) (·.eip)).isSome = true ∧
    faultOf (step (code [0x8B, 0x04, 0x24])) = some (.unimplementedAddressingForm 0x8B 0 0 4) ∧
    faultOf (step (code [0x50] (State.reset.setReg .esp 0))) =
      some (.outOfBounds 0xFFFFFFFC 4 .write) := by decide

theorem witness_OnlyTransfersToZeroHaltNormally :
    ∃ t, step (code [0xE9, 0xFB, 0x83, 0xFF, 0xFF]) = .next t ∧
      (t.run, t.eip) = (.haltedNormal, 0#32) :=
  next_of_after (by decide)

/-- The hypotheses of the second clause. -/
theorem witness_OnlyTransfersToZeroHaltNormally_decoded :
    let s := code [0xE9, 0xFB, 0x83, 0xFF, 0xFF]
    s.eip.toNat < Config.memSize ∧
    decode s.codeBytes = .ok (.jmpRel32 0xFFFF83FB, [0, 0, 0, 0, 0]) := by decide

/-! ## Witnesses: start and invariant -/

/-- A launch of `n` image bytes at `a`. -/
def launchOf (a : Word) (n : Nat) : Launch :=
  { defaultLaunch with loadAddr := a, image := List.replicate n 0x90#8 }

theorem launchOf_length (a : Word) (n : Nat) : (launchOf a n).image.length = n :=
  List.length_replicate

/-- The longest image at the top of memory; one byte too many; one address too high. -/
theorem witness_LaunchStartsAsConfigured :
    ((launchOf 0xFFE00 512).image.length ≤ 512 ∧
      (launchOf 0xFFE00 512).loadAddr.toNat + (launchOf 0xFFE00 512).image.length ≤ 1048576) ∧
    ¬((launchOf 0x7C00 513).image.length ≤ 512 ∧
      (launchOf 0x7C00 513).loadAddr.toNat + (launchOf 0x7C00 513).image.length ≤ 1048576) ∧
    ¬((launchOf 0xFFE01 512).image.length ≤ 512 ∧
      (launchOf 0xFFE01 512).loadAddr.toNat + (launchOf 0xFFE01 512).image.length ≤ 1048576) := by
  simp only [launchOf_length]
  decide

theorem witness_LaunchMeetsTheInvariant :
    Memory.wf defaultLaunch.initMem ∧ State.launch defaultLaunch = some State.reset :=
  ⟨Memory.nil_wf, launch_default⟩

theorem witness_StepKeepsTheInvariant :
    (code [0x40]).Inv ∧ ∃ t, step (code [0x40]) = .next t ∧ t.reg .eax = 1#32 :=
  ⟨⟨by decide, trivial, rfl⟩, next_of_after (by decide)⟩

/-- A running step below MEM_SIZE that faults, one at MEM_SIZE, and an ended run. -/
theorem witness_HostLogIsOnlyAppended_trace :
    ((code [0x8B, 0x04, 0x24]).run = .running ∧
      (code [0x8B, 0x04, 0x24]).eip.toNat < Config.memSize) ∧
    Config.memSize ≤ (State.reset.jumpTo 0x100000).eip.toNat ∧
    State.reset.exitOutOfRange.run ≠ .running := by decide

/-- R76: the faulting step's trace line, if TRACE is on, is all it leaves on the host's log. -/
theorem test_trace_of_a_fault :
    (State.runFor 1 (code [0x8B, 0x04, 0x24])).hostLog =
      if Config.trace then [.trace 0x8B 0x7C00] else [] := by
  rw [runFor_fault (by decide) (fault_of_faultOf (by decide) :
      step (code [0x8B, 0x04, 0x24]) = .fault (.unimplementedAddressingForm 0x8B 0 0 4)),
    hostLogAfterStep_fault (fault_of_faultOf (by decide) :
      step (code [0x8B, 0x04, 0x24]) = .fault (.unimplementedAddressingForm 0x8B 0 0 4))]
  exact traceFetch_hostLog _

theorem witness_HostLogIsOnlyAppended :
    (∃ t, step (code [0x40]) = .next t ∧ t.reg .eax = 1#32) ∧
    step (code [0x8B, 0x04, 0x24]) = .fault (.unimplementedAddressingForm 0x8B 0 0 4) :=
  ⟨next_of_after (by decide), fault_of_faultOf (by decide)⟩

/-! ## Witnesses: registers, memory, flags -/

/-- The four bytes at the top of memory. -/
theorem witness_MemoryAccessesAreLittleEndian :
    (0xFFFFC#32).toNat + 4 ≤ Config.memSize ∧
    State.memRead32 (put 0xFFFFC [1, 2, 3, 4] State.reset) 0xFFFFC = .ok 0x04030201 := by decide

/-- Both sides of each bound. -/
theorem witness_AccessesOutsideMemoryFault :
    (Config.memSize < (0x100000#32).toNat + 1 ∧ ¬Config.memSize < (0xFFFFF#32).toNat + 1) ∧
    (Config.memSize < (0xFFFFD#32).toNat + 4 ∧ ¬Config.memSize < (0xFFFFC#32).toNat + 4) := by
  decide

theorem witness_CanonicalMemoriesThatReadAlikeAreEqual :
    Memory.wf [(5, 1#8), (9, 2#8)] ∧ Memory.write [(9, 2#8)] 5 1#8 = [(5, 1#8), (9, 2#8)] := by
  decide

/-! ## Witnesses: instructions -/

/-- A register, the last four bytes of memory, and the last byte; and the first that are not. -/
theorem witness_operands :
    Rm32Accessible (.reg .esp) State.reset ∧
    Rm32Accessible (.mem (.abs 0xFFFFC)) State.reset ∧
    Rm32Accessible (.mem (.disp8 .ebp 0xFC)) (State.reset.setReg .ebp 0x100000) ∧
    Rm8Accessible (.reg .ah) State.reset ∧
    Rm8Accessible (.mem (.abs 0xFFFFF)) State.reset ∧
    ¬Rm32Accessible (.mem (.abs 0xFFFFD)) State.reset ∧
    ¬Rm8Accessible (.mem (.abs 0x100000)) State.reset := by decide

theorem witness_MovToRegisterOrMemory32 :
    Rm32Accessible (.mem (.disp32 .eax 0xFFFFC)) State.reset := by decide
theorem witness_MovFromRegisterOrMemory32 :
    Rm32Accessible (.mem (.disp8 .eax 0x7F)) State.reset := by decide
theorem witness_MovOfBytes :
    Rm8Accessible (.mem (.base .eax)) State.reset ∧
    Rm8Accessible (.mem (.abs 0xFFFFF)) State.reset := by decide
theorem witness_AddAndIncWrapAndKeepFlags :
    Rm32Accessible (.mem (.base .eax)) State.reset ∧ Rm32Accessible (.reg .eax) State.reset := by
  decide
theorem witness_SubStoresAndSetsFlags :
    Rm32Accessible (.mem (.abs 0)) State.reset := by decide
theorem witness_CompareSetsOnlyFlags :
    Rm32Accessible (.mem (.abs 0xFFFFC)) State.reset ∧ Rm32Accessible (.reg .edi) State.reset := by
  decide

/-- The lowest and the highest stack slot, and both settings of PUSH_IMM8_EXT. -/
theorem witness_PushStoresBelowTheStack :
    (((State.reset.setReg .esp 4).reg .esp - 4#32).toNat + 4 ≤ Config.memSize ∧
     ((State.reset.setReg .esp 0x100000).reg .esp - 4#32).toNat + 4 ≤ Config.memSize) ∧
    (Config.pushImm8Ext = .sign ∨ Config.pushImm8Ext = .zero) := by
  refine ⟨by decide, ?_⟩
  cases Config.pushImm8Ext
  · exact .inl rfl
  · exact .inr rfl

theorem witness_SmallPushImmediatesNeedNoSetting :
    (0x7F#8).toNat < 128 ∧ ¬(0x80#8).toNat < 128 := by decide
theorem witness_PopLoadsFromTheStack :
    ((State.reset.setReg .esp 0xFFFFC).reg .esp).toNat + 4 ≤ Config.memSize := by decide
theorem witness_PushThenPopRestoresTheRegisters :
    (State.reset.reg .esp - 4#32).toNat + 4 ≤ Config.memSize := by decide

theorem witness_ConditionalJumpsFollowTheirFlags (d : Byte) (s : State) :
    (Instr.jle d, s.flags.zf || s.flags.sf != s.flags.of) ∈
      [(Instr.jo d, s.flags.of), (.jno d, !s.flags.of), (.jc d, s.flags.cf), (.jnc d, !s.flags.cf),
       (.jz d, s.flags.zf), (.jnz d, !s.flags.zf), (.js d, s.flags.sf), (.jns d, !s.flags.sf),
       (.jl d, s.flags.sf != s.flags.of), (.jle d, s.flags.zf || s.flags.sf != s.flags.of)] := by
  simp

theorem witness_CallPushesTheReturnAddress :
    ((State.reset.setReg .esp 0x100000).reg .esp - 4#32).toNat + 4 ≤ Config.memSize := by decide
theorem witness_ReturnPopsTheTarget :
    ((State.reset.setReg .esp 0xFFFFC).reg .esp).toNat + 4 ≤ Config.memSize := by decide
theorem witness_ReturnComesBackFromCall :
    ((State.reset.setReg .esp 4).reg .esp - 4#32).toNat + 4 ≤ Config.memSize := by decide
theorem witness_LeaveTearsDownTheFrame :
    ((State.reset.setReg .ebp 0xFFFFC).reg .ebp).toNat + 4 ≤ Config.memSize := by decide
theorem witness_UnknownVectorsAreReportedAndIgnored : 0x0F#8 ≠ 0x10#8 ∧ 0x11#8 ≠ 0x10#8 := by
  decide

/-! ## Witnesses: faults and frames -/

theorem witness_OperandsOutsideMemoryFault :
    Config.memSize < (MemRef.ea (.abs 0xFFFFD) State.reset).toNat + 4 ∧
    Config.memSize < (MemRef.ea (.disp8 .eax 0xFF) State.reset).toNat + 4 ∧
    Config.memSize < (MemRef.ea (.abs 0x100000) State.reset).toNat + 1 := by decide

/-- The wrap below address 0, the slot just past the end, and the last address that is too high. -/
theorem witness_StackAccessesOutsideMemoryFault :
    Config.memSize < ((State.reset.setReg .esp 3).reg .esp - 4#32).toNat + 4 ∧
    Config.memSize < ((State.reset.setReg .esp 0x100001).reg .esp - 4#32).toNat + 4 ∧
    ((State.reset.setReg .esp 3).reg .esp).toNat < 4 ∧
    Config.memSize < ((State.reset.setReg .esp 0xFFFFD).reg .esp).toNat + 4 ∧
    Config.memSize < ((State.reset.setReg .ebp 0xFFFFD).reg .ebp).toNat + 4 := by decide

theorem witness_MeaningsFaultOnlyOnDataBounds :
    exec .ret (State.reset.setReg .esp 0x100000) = .fault (.outOfBounds 0x100000 4 .read) :=
  fault_of_faultOf (by decide)

theorem witness_OnlySubAndCmpWriteFlags :
    writesFlags (.addRm32R32 (.reg .eax) .ebx) = false ∧
    ∃ t, exec (.addRm32R32 (.reg .eax) .ebx) marked = .next t ∧ t.eip = 0x7C02#32 :=
  ⟨by decide, next_of_after (by decide)⟩

theorem witness_OnlyConditionalJumpsReadFlags :
    readsFlags .ret = false ∧ (∃ t, exec .ret State.reset = .next t ∧ t.eip = 0#32) ∧
    exec .ret (State.reset.setReg .esp 0x100000) = .fault (.outOfBounds 0x100000 4 .read) :=
  ⟨by decide, next_of_after (by decide), fault_of_faultOf (by decide)⟩

theorem witness_OtherRegistersAreUnchanged :
    Reg32.ecx ∉ destRegs (.popR32 .eax) ∧
    ∃ t, exec (.popR32 .eax) State.reset = .next t ∧ t.reg .esp = 0x7C04#32 :=
  ⟨by decide, next_of_after (by decide)⟩

/-- A form that stores, and one that does not. -/
theorem witness_OtherBytesAreUnchanged :
    (storeOf (.pushImm32 1) State.reset = some (0x7BFC, 4) ∧
      ∃ t, exec (.pushImm32 1) State.reset = .next t ∧ t.reg .esp = 0x7BFC#32) ∧
    (storeOf (.incR32 .eax) State.reset = none ∧
      ∃ t, exec (.incR32 .eax) State.reset = .next t ∧ t.reg .eax = 1#32) :=
  ⟨⟨by decide, next_of_after (by decide)⟩, ⟨by decide, next_of_after (by decide)⟩⟩

theorem witness_OtherInstructionsAdvanceByTheirLength :
    isTransfer .leave = false ∧ ∃ t, exec .leave State.reset = .next t ∧ t.eip = 0x7C01#32 :=
  ⟨by decide, next_of_after (by decide)⟩

theorem witness_OnlyIoInstructionsCallTheHost :
    (Instr.incR32 .eax ≠ .inAlDx ∧ Instr.incR32 .eax ≠ .outDxAl ∧
      ∀ v, Instr.incR32 .eax ≠ .intImm8 v) ∧
    ∃ t, exec (.incR32 .eax) State.reset = .next t ∧ t.reg .eax = 1#32 :=
  ⟨⟨by decide, by decide, fun _ h => nomatch h⟩, next_of_after (by decide)⟩

theorem witness_EndsOfARun :
    (State.reset.exitOutOfRange.dump.map fun d => (d.eip, d.flags)) = some (0x7C00, 0) := by decide

end Sys2Proof.Tests
end

/-! SUPPORT. What a meaning may change outside `eip` and the flags: said once for each shared
operation, then once for every instruction. -/

namespace Sys2Proof.Machine

section Frames

variable {s t u : State} {ds : List Reg32} {st : Option (Word × Nat)}

/-- Memory `n` is `m` with at most the bytes of `st` stored: no other byte reads otherwise, and the
canonical form is kept (20_memory.md R43, R44). -/
def StoresOnly : Option (Word × Nat) → Memory → Memory → Prop
  | none, m, n => n = m
  | some (a, k), m, n =>
    InMemory a k ∧
    (∀ b, ¬(a.toNat ≤ b ∧ b < a.toNat + k) → Memory.read n b = Memory.read m b) ∧
    (Memory.wf m → Memory.wf n)

theorem StoresOnly.wf {m n : Memory} (h : StoresOnly st m n) (hm : Memory.wf m) : Memory.wf n := by
  cases st with
  | none => exact h.symm ▸ hm
  | some ak => exact h.2.2 hm

theorem storesOnly_write {a : Word} (m : Memory) (v : Byte) (ha : InMemory a 1) :
    StoresOnly (some (a, 1)) m (Memory.write m a.toNat v) :=
  ⟨ha, fun _ hb => Memory.read_write_other m v (by omega), fun hm => Memory.write_wf v hm ha⟩

theorem storesOnly_write32 {a : Word} (m : Memory) (v : Word) (ha : InMemory a 4) :
    StoresOnly (some (a, 4)) m (Memory.write32 m a.toNat v) :=
  ⟨ha, fun b hb => (Memory.read_write32 m a.toNat b v).trans (if_neg hb),
    fun hm => Memory.write32_wf v hm ha⟩

/-- The collaborator calls made between two states are appended to the log, and the console count
rises by the console reads among them (log 9, log 10). -/
def CallsCounted (s t : State) : Prop :=
  ∃ calls, t.hostLog = s.hostLog ++ calls ∧
    t.consoleReads = s.consoleReads + (calls.filter isConsoleRead).length

theorem CallsCounted.refl (s : State) : CallsCounted s s := ⟨[], by simp⟩

/-- From `s` to `t` only the registers `ds`, the bytes `st`, `eip`, the flags and the observations
have changed. -/
structure Touches (ds : List Reg32) (st : Option (Word × Nat)) (s t : State) : Prop where
  regs : ∀ r, r ∉ ds → t.reg r = s.reg r
  mem : StoresOnly st s.mem t.mem
  run : t.run = s.run
  calls : CallsCounted s t

theorem Touches.refl (s : State) : Touches [] none s s := ⟨fun _ _ => rfl, rfl, rfl, .refl s⟩

/-! ### Updates that a frame does not speak of -/

theorem Touches.advance (h : Touches ds st s t) (n : Nat) : Touches ds st s (t.advance n) :=
  ⟨h.regs, h.mem, h.run, h.calls⟩

theorem Touches.jumpTo (h : Touches ds st s t) (a : Word) : Touches ds st s (t.jumpTo a) :=
  ⟨h.regs, h.mem, h.run, h.calls⟩

theorem Touches.setFlags (h : Touches ds st s t) (f : Flags) : Touches ds st s (t.setFlags f) :=
  ⟨h.regs, h.mem, h.run, h.calls⟩

/-! ### Register writes -/

theorem Touches.setReg (h : Touches ds st s t) (r : Reg32) (v : Word) :
    Touches (r :: ds) st s (t.setReg r v) where
  regs q hq := by
    simp only [List.mem_cons, not_or] at hq
    simp [hq.1, h.regs q hq.2]
  mem := h.mem
  run := h.run
  calls := h.calls

/-- A view's write touches the register the view lies in (10_state.md R23). -/
theorem Touches.setReg8 (h : Touches ds st s t) (i : Reg8) (v : Byte) :
    Touches (viewReg i :: ds) st s (t.setReg8 i v) := h.setReg (viewReg i) _

theorem Touches.mono {es : List Reg32} (h : Touches ds st s t) (hd : ds ⊆ es) :
    Touches es st s t := ⟨fun r hr => h.regs r fun hd' => hr (hd hd'), h.mem, h.run, h.calls⟩

/-! ### The shared operations -/

theorem writeRm32_touches {d : Rm32} {v : Word} (h : s.writeRm32 d v = .ok t) :
    Touches (rm32DestRegs d) (rm32Store d s) s t := by
  obtain ⟨r, rfl, rfl⟩ | ⟨m, rfl, hb, rfl⟩ := writeRm32_cases h
  · exact (Touches.refl s).setReg r v
  · exact ⟨fun _ _ => rfl, storesOnly_write32 s.mem v hb, rfl, .refl s⟩

theorem writeRm8_touches {d : Rm8} {v : Byte} (h : s.writeRm8 d v = .ok t) :
    Touches (rm8DestRegs d) (rm8Store d s) s t := by
  obtain ⟨i, rfl, rfl⟩ | ⟨m, rfl, hb, rfl⟩ := writeRm8_cases h
  · exact (Touches.refl s).setReg8 i v
  · exact ⟨fun _ _ => rfl, storesOnly_write s.mem v hb, rfl, .refl s⟩

theorem push_touches {v : Word} (h : s.push v = .ok t) :
    Touches [.esp] (some (s.reg .esp - 4#32, 4)) s t := by
  obtain ⟨hb, rfl⟩ := push_cases h
  have hr := (Touches.refl s).setReg .esp (s.reg .esp - 4#32)
  exact ⟨hr.regs, storesOnly_write32 s.mem v hb, rfl, .refl s⟩

theorem pop_touches {v : Word} (h : s.pop = .ok (v, t)) : Touches [.esp] none s t := by
  obtain ⟨-, -, rfl⟩ := pop_cases h
  exact (Touches.refl s).setReg .esp _

theorem call_touches {e : HostEvent} (s : State) (he : isConsoleRead e = false) :
    Touches [] none s (s.call e) := ⟨fun _ _ => rfl, rfl, rfl, [e], by simp [he]⟩

/-- A port read changes only the observations (60_exceptions.md R193). -/
theorem portRead_touches (s : State) (p : Port) : Touches [] none s (s.portRead p).2 where
  regs r _ := by simp [State.reg]
  mem := s.portRead_mem p
  run := s.portRead_run p
  calls := ⟨_, s.portRead_hostLog p, by
    rw [s.portRead_consoleReads]
    by_cases hp : p = Config.consolePort <;> simp [isConsoleRead, hp]⟩

/-! ### Meanings -/

/-- A meaning that answers a next state had its first part succeed. -/
theorem next_of_bind {α : Type} {x : Except Fault α} {k : α → Except Fault State}
    (h : finish (x >>= k) = .next t) : ∃ a, x = .ok a ∧ finish (k a) = .next t := by
  simpa only [finish_next, bind_ok] using h

/-- A meaning that answers a next state at once answers that one. -/
theorem next_of_pure (h : finish (.ok u) = .next t) : u = t := by simpa using h

theorem jumpIf_touches {c : Bool} {rel : Byte} (h : jumpIf c rel s = .next t) :
    Touches [] none s t := by
  obtain rfl := next_of_pure h
  cases c
  · exact (Touches.refl s).advance 2
  · exact (Touches.refl s).jumpTo _

/-- What an instruction may change, `eip` and the flags apart: its destination registers, the bytes
it stores, and the observations (10_state.md R21, R23; 20_memory.md R43). -/
theorem exec_touches {i : Instr} (h : exec i s = .next t) :
    Touches (destRegs i) (storeOf i s) s t := by
  have h0 := Touches.refl s
  cases i
  case movR8Imm dst imm => obtain rfl := next_of_pure h; exact (h0.setReg8 dst imm).advance _
  case movR32Imm dst imm => obtain rfl := next_of_pure h; exact (h0.setReg dst imm).advance _
  case incR32 dst => obtain rfl := next_of_pure h; exact (h0.setReg dst _).advance _
  case movRm32Imm | movRm32R32 =>
    obtain ⟨u, hu, h⟩ := next_of_bind h
    obtain rfl := next_of_pure h
    exact (writeRm32_touches hu).advance _
  case movRm8R8 =>
    obtain ⟨u, hu, h⟩ := next_of_bind h
    obtain rfl := next_of_pure h
    exact (writeRm8_touches hu).advance _
  case movR8Rm8 dst src =>
    obtain ⟨v, -, h⟩ := next_of_bind h
    obtain rfl := next_of_pure h
    exact (h0.setReg8 dst v).advance _
  case movR32Rm32 dst src =>
    obtain ⟨v, -, h⟩ := next_of_bind h
    obtain rfl := next_of_pure h
    exact (h0.setReg dst v).advance _
  case addRm32R32 | addRm32Imm8 | incRm32 =>
    obtain ⟨l, -, h⟩ := next_of_bind h
    obtain ⟨u, hu, h⟩ := next_of_bind h
    obtain rfl := next_of_pure h
    exact (writeRm32_touches hu).advance _
  case subRm32Imm8 =>
    obtain ⟨l, -, h⟩ := next_of_bind h
    obtain ⟨u, hu, h⟩ := next_of_bind h
    obtain rfl := next_of_pure h
    exact ((writeRm32_touches hu).setFlags _).advance _
  case cmpRm32Imm8 | cmpR32Rm32 =>
    obtain ⟨v, -, h⟩ := next_of_bind h
    obtain rfl := next_of_pure h
    exact (h0.setFlags _).advance _
  case cmpAlImm8 | cmpEaxImm32 =>
    obtain rfl := next_of_pure h
    exact (h0.setFlags _).advance _
  case pushR32 | pushImm8 | pushImm32 =>
    obtain ⟨u, hu, h⟩ := next_of_bind h
    obtain rfl := next_of_pure h
    exact (push_touches hu).advance _
  case callRel32 =>
    obtain ⟨u, hu, h⟩ := next_of_bind h
    obtain rfl := next_of_pure h
    exact (push_touches hu).jumpTo _
  case popR32 dst =>
    obtain ⟨⟨v, u⟩, hu, h⟩ := next_of_bind h
    obtain rfl := next_of_pure h
    exact (((pop_touches hu).setReg dst v).mono (by simp [destRegs])).advance 1
  case ret =>
    obtain ⟨⟨v, u⟩, hu, h⟩ := next_of_bind h
    obtain rfl := next_of_pure h
    exact (pop_touches hu).jumpTo v
  case leave =>
    obtain ⟨⟨v, u⟩, hu, h⟩ := next_of_bind h
    obtain rfl := next_of_pure h
    obtain ⟨-, -, rfl⟩ := pop_cases hu
    exact ((((h0.setReg .esp _).setReg .esp _).setReg .ebp v).mono (by simp [destRegs])).advance 1
  case jmpRel8 | jmpRel32 => obtain rfl := next_of_pure h; exact h0.jumpTo _
  case jo | jno | jc | jnc | jz | jnz | js | jns | jl | jle => exact jumpIf_touches h
  case inAlDx =>
    obtain rfl := next_of_pure h
    exact ((portRead_touches s s.dx).setReg8 .al _).advance 1
  case outDxAl => obtain rfl := next_of_pure h; exact (call_touches s rfl).advance 1
  case intImm8 vec =>
    obtain rfl := next_of_pure h
    refine Touches.advance ?_ 2
    split
    · exact call_touches s rfl
    · exact call_touches s rfl

end Frames

end Sys2Proof.Machine

/-! SUPPORT. Every step keeps the invariant: each part of it along a meaning's frame, the trace line
and the look at address zero. -/

namespace Sys2Proof.Machine

section Invariant

variable {s t u : State}

/-- The console count is the number of console reads in the log (log 10). -/
def ConsoleExact (s : State) : Prop :=
  s.consoleReads = (s.hostLog.filter isConsoleRead).length

theorem State.Inv.consoleExact (h : s.Inv) : ConsoleExact s := h.2.2

theorem CallsCounted.consoleExact (h : CallsCounted s t) (hs : ConsoleExact s) :
    ConsoleExact t := by
  obtain ⟨calls, hlog, hcount⟩ := h
  rw [ConsoleExact, hlog, hcount, hs, List.filter_append, List.length_append]

/-- The trace line is no console read (60_exceptions.md R197). -/
theorem traceFetch_touches (s : State) : Touches [] none s s.traceFetch where
  regs _ _ := rfl
  mem := rfl
  run := rfl
  calls := ⟨_, traceFetch_hostLog s, by split <;> simp [isConsoleRead]⟩

/-- After the look at address zero the run value fits, whatever the handler left in a running
machine (30_encoding.md R78). -/
theorem haltAtZero_runCoherent (h : u.run = .running) : RunCoherent u.haltAtZero := by
  unfold RunCoherent
  by_cases hz : u.eip = 0#32 <;> simp [hz, h]

/-- The exit at or beyond MEM_SIZE keeps the invariant (30_encoding.md R79). -/
theorem exitOutOfRange_inv (h : s.Inv) (hm : Config.memSize ≤ s.eip.toNat) :
    s.exitOutOfRange.Inv := ⟨h.1, hm, h.consoleExact⟩

/-- The halt at an unregistered opcode keeps the invariant: the byte it names stands at `eip`
(60_exceptions.md R182). -/
theorem raiseOpcode_inv {op : Byte} (h : s.Inv) (hm : s.eip.toNat < Config.memSize)
    (hd : decode s.codeBytes = .error (.unimplementedOpcode op)) :
    (s.traceFetch.raiseOpcode op).Inv := by
  obtain ⟨rest, hop, hnone⟩ := decode_opcode hd
  obtain ⟨rest', hread⟩ := codeBytes_cons hm
  have hbyte : Memory.read s.mem s.eip.toNat = op := (List.cons.inj (hread.symm.trans hop)).1
  exact ⟨h.1, ⟨hm, hbyte, hnone⟩, (traceFetch_touches s).calls.consoleExact h.consoleExact⟩

/-- An instruction's meaning and the look at address zero keep the invariant in a running
machine. -/
theorem exec_haltAtZero_inv {i : Instr} (h : s.Inv) (hr : s.run = .running)
    (he : exec i s = .next u) : u.haltAtZero.Inv := by
  have hu := exec_touches he
  refine ⟨?_, haltAtZero_runCoherent (hu.run.trans hr), ?_⟩
  · rw [State.haltAtZero_mem]; exact hu.mem.wf h.1
  · rw [State.haltAtZero_consoleReads, State.haltAtZero_hostLog]
    exact hu.calls.consoleExact h.consoleExact

/-- Fetching an opcode keeps the invariant (30_encoding.md R76). -/
theorem traceFetch_inv (h : s.Inv) : s.traceFetch.Inv :=
  ⟨h.1, h.2.1, (traceFetch_touches s).calls.consoleExact h.consoleExact⟩

theorem step_inv (h : s.Inv) (hst : step s = .next t) : t.Inv := by
  obtain ⟨hr, ⟨hm, rfl⟩ | ⟨hm, op, hd, rfl⟩ | ⟨-, i, rest, u, -, he, rfl⟩⟩ := step_cases hst
  · exact exitOutOfRange_inv h hm
  · exact raiseOpcode_inv h hm hd
  · exact exec_haltAtZero_inv (traceFetch_inv h) hr he

end Invariant

/-- Settles O20: what a step can do (`step_cases`), each case keeping each part of the invariant, a
meaning's by its frame (`exec_touches`). -/
theorem stepKeepsTheInvariant : Obligations.StepKeepsTheInvariant := fun _ _ => step_inv

/-- Settles O18. -/
theorem resetMeetsTheInvariant : Obligations.ResetMeetsTheInvariant :=
  ⟨Memory.nil_wf, trivial, rfl⟩

/-- Settles O56, by the frame of every instruction. -/
theorem otherRegistersAreUnchanged : Obligations.OtherRegistersAreUnchanged :=
  fun _ _ _ r h hr => (exec_touches h).regs r hr

end Sys2Proof.Machine

/-! SUPPORT. The flags are read by the conditional jumps alone: every shared operation, and every
other meaning, does the same whatever they hold. -/

namespace Sys2Proof.Machine

section FlagsUnread

variable (s : State) (f : Flags)

/-- A result with its next state, if there is one, changed by `g`. -/
def onNext (g : State → State) : Result → Result
  | .next t => .next (g t)
  | .fault e => .fault e
  | .refused r => .refused r

@[simp] theorem onNext_next (g : State → State) (t : State) : onNext g (.next t) = .next (g t) := rfl

@[simp] theorem onNext_finish (g : State → State) (x : Except Fault State) :
    onNext g (finish x) = finish (g <$> x) := by
  cases x <;> rfl

/-! ### Updates and shared operations from other flags -/

@[simp] theorem setFlags_setFlags (g : Flags) : (s.setFlags f).setFlags g = s.setFlags g := rfl
@[simp] theorem setReg_setFlags (r : Reg32) (v : Word) :
    (s.setFlags f).setReg r v = (s.setReg r v).setFlags f := rfl
@[simp] theorem setReg8_setFlags (i : Reg8) (v : Byte) :
    (s.setFlags f).setReg8 i v = (s.setReg8 i v).setFlags f := rfl
@[simp] theorem advance_setFlags (n : Nat) :
    (s.setFlags f).advance n = (s.advance n).setFlags f := rfl
@[simp] theorem jumpTo_setFlags (a : Word) :
    (s.setFlags f).jumpTo a = (s.jumpTo a).setFlags f := rfl
@[simp] theorem relTarget_setFlags (n : Nat) (rel : Word) :
    (s.setFlags f).relTarget n rel = s.relTarget n rel := rfl
@[simp] theorem biosVideo_setFlags : (s.setFlags f).biosVideo = s.biosVideo.setFlags f := rfl
@[simp] theorem reportUnknown_setFlags (vec : Byte) :
    (s.setFlags f).reportUnknown vec = (s.reportUnknown vec).setFlags f := rfl
@[simp] theorem portWrite_setFlags (p : Port) (v : Byte) :
    (s.setFlags f).portWrite p v = (s.portWrite p v).setFlags f := rfl
@[simp] theorem dx_setFlags : (s.setFlags f).dx = s.dx := rfl

@[simp] theorem portRead_setFlags (p : Port) :
    (s.setFlags f).portRead p = ((s.portRead p).1, (s.portRead p).2.setFlags f) := by
  unfold State.portRead
  split <;> rfl

@[simp] theorem ea_setFlags (m : MemRef) : MemRef.ea m (s.setFlags f) = MemRef.ea m s := by
  cases m <;> rfl

@[simp] theorem readRm32_setFlags (d : Rm32) : (s.setFlags f).readRm32 d = s.readRm32 d := by
  cases d <;> simp [readRm32_eq]

@[simp] theorem readRm8_setFlags (d : Rm8) : (s.setFlags f).readRm8 d = s.readRm8 d := by
  cases d <;> simp [readRm8_eq]

@[simp] theorem writeRm32_setFlags (d : Rm32) (v : Word) :
    (s.setFlags f).writeRm32 d v = (·.setFlags f) <$> s.writeRm32 d v := by
  cases d with
  | reg r => rfl
  | mem m =>
    simp only [writeRm32_eq, ea_setFlags]
    split <;> rfl

@[simp] theorem writeRm8_setFlags (d : Rm8) (v : Byte) :
    (s.setFlags f).writeRm8 d v = (·.setFlags f) <$> s.writeRm8 d v := by
  cases d with
  | reg i => rfl
  | mem m =>
    simp only [writeRm8_eq, ea_setFlags]
    split <;> rfl

@[simp] theorem push_setFlags (v : Word) :
    (s.setFlags f).push v = (·.setFlags f) <$> s.push v := by
  by_cases h : InMemory (s.reg .esp - 4#32) 4
  · rw [push_in h, push_in (s := s.setFlags f) h]; rfl
  · rw [push_out h, push_out (s := s.setFlags f) h]; rfl

@[simp] theorem pop_setFlags :
    (s.setFlags f).pop = (fun p => (p.1, p.2.setFlags f)) <$> s.pop := by
  by_cases h : InMemory (s.reg .esp) 4
  · rw [pop_in h, pop_in (s := s.setFlags f) h]; rfl
  · rw [pop_out h, pop_out (s := s.setFlags f) h]; rfl

/-! ### Meanings from other flags -/

/-- A meaning that neither reads nor writes the flags does the same from other flags, and leaves
them (10_state.md R28, R29). -/
theorem exec_setFlags_of_neutral {i : Instr} (hr : readsFlags i = false)
    (hw : writesFlags i = false) :
    exec i (s.setFlags f) = onNext (·.setFlags f) (exec i s) := by
  cases i
  case jo | jno | jc | jnc | jz | jnz | js | jns | jl | jle => nomatch hr
  case subRm32Imm8 | cmpRm32Imm8 | cmpR32Rm32 | cmpAlImm8 | cmpEaxImm32 => nomatch hw
  case movR8Imm | movR32Imm | incR32 | jmpRel8 | jmpRel32 => rfl
  case movRm32Imm | movRm32R32 | movR32Rm32 =>
    simp [exec, execMovRm32Imm, execMovRm32R32, execMovR32Rm32]
  case movR8Rm8 | movRm8R8 => simp [exec, execMovR8Rm8, execMovRm8R8]
  case addRm32R32 | addRm32Imm8 | incRm32 =>
    simp [exec, execAddRm32R32, execAddRm32Imm8, execIncRm32]
  case pushR32 | pushImm8 | pushImm32 | callRel32 =>
    simp [exec, execPushR32, execPushImm8, execPushImm32, execCallRel32]
  case popR32 | ret | leave => simp [exec, execPopR32, execRet, execLeave]
  case inAlDx | outDxAl => simp [exec, execInAlDx, execOutDxAl]
  case intImm8 vec =>
    simp only [exec, execIntImm8]
    split <;> rfl

/-- The five writers of the flags answer the same from other flags (10_state.md R28, R29). -/
theorem exec_setFlags_of_writer {i : Instr} (hw : writesFlags i = true) :
    exec i (s.setFlags f) = exec i s := by
  cases i
  case subRm32Imm8 => simp [exec, execSubRm32Imm8]
  case cmpRm32Imm8 | cmpR32Rm32 => simp [exec, execCmpRm32Imm8, execCmpR32Rm32]
  case cmpAlImm8 | cmpEaxImm32 => rfl
  all_goals nomatch hw

/-- A conditional jump leaves the flags, taken or not (43_control.md R142). -/
theorem jumpIf_flags {c : Bool} {rel : Byte} {t : State} (h : jumpIf c rel s = .next t) :
    t.flags = s.flags := by
  obtain rfl := next_of_pure h
  cases c <;> rfl

end FlagsUnread

/-- Settles O54: a meaning that does not read the flags either does the same with the flags set to
what they are, and leaves those; the conditional jumps move `eip` alone. -/
theorem onlySubAndCmpWriteFlags : Obligations.OnlySubAndCmpWriteFlags := by
  intro i s t h hw
  by_cases hr : readsFlags i = true
  · cases i
    case jo | jno | jc | jnc | jz | jnz | js | jns | jl | jle => exact jumpIf_flags s h
    all_goals nomatch hr
  · have hself : exec i s = onNext (·.setFlags s.flags) (exec i s) :=
      exec_setFlags_of_neutral s s.flags (Bool.eq_false_of_not_eq_true hr) hw
    rw [h, onNext_next] at hself
    calc t.flags = (t.setFlags s.flags).flags := congrArg State.flags (Host.Outcome.next.inj hself)
      _ = s.flags := rfl

/-- Settles O55: a writer answers the same, any other non-reader the same but for the flags. -/
theorem onlyConditionalJumpsReadFlags : Obligations.OnlyConditionalJumpsReadFlags := by
  intro i s f hr
  cases hw : writesFlags i with
  | true =>
    have hex := exec_setFlags_of_writer s f hw
    exact ⟨fun t ht => hex.trans ht, fun e he => hex.trans he⟩
  | false =>
    have hex := exec_setFlags_of_neutral s f hr hw
    exact ⟨fun t ht => hex.trans (by rw [ht]; rfl), fun e he => hex.trans (by rw [he]; rfl)⟩

end Sys2Proof.Machine

/-! SUPPORT. Runs under fuel: an ended run, a run that never ends, and what more fuel does. -/

namespace Sys2Proof.Machine

section Runs

variable {s t : State}

/-- From a terminal run state the step answers the fault `runEnded` (10_state.md R34; log 12). -/
theorem step_ended (h : s.run ≠ .running) : step s = .fault (.runEnded s.run) := by
  unfold step
  split
  next hr => exact absurd hr h
  all_goals rfl

/-- A step that is refused stops the run under fuel. -/
theorem runFor_refused {r : Refusal} (hr : s.run = .running) (h : step s = .refused r)
    (fuel : Nat) : State.runFor (fuel + 1) s = .refused r s.hostLogAfterStep := by
  simp [State.runFor, hr, h]

/-- A run that is out of fuel is still running (D28). -/
theorem running_of_outOfFuel {n : Nat} (h : State.runFor n s = .outOfFuel t) :
    t.run = .running := by
  induction n generalizing s with
  | zero =>
    by_cases hr : s.run = .running
    · rw [runFor_zero hr] at h
      cases h
      exact hr
    · simp [runFor_ended hr] at h
  | succ n ih =>
    by_cases hr : s.run = .running
    · cases hs : step s with
      | next u => exact ih (runFor_next hs n ▸ h)
      | fault f => simp [runFor_fault hr hs] at h
      | refused r => simp [runFor_refused hr hs] at h
    · simp [runFor_ended hr] at h

/-- Once a run has ended, more fuel changes nothing (70_reset_and_hazards.md R216). -/
theorem runFor_add_of_isEnd {n : Nat} (k : Nat) (h : (State.runFor n s).isEnd = true) :
    State.runFor (n + k) s = State.runFor n s := by
  by_cases hr : s.run = .running
  · induction n generalizing s with
    | zero => simp [runFor_zero hr, RunOutcome.isEnd] at h
    | succ n ih =>
      rw [Nat.succ_add]
      cases hs : step s with
      | next u =>
        rw [runFor_next hs] at h
        rw [runFor_next hs, runFor_next hs]
        by_cases hu : u.run = .running
        · exact ih h hu
        · rw [runFor_ended hu, runFor_ended hu]
      | fault f => rw [runFor_fault hr hs, runFor_fault hr hs]
      | refused r => rw [runFor_refused hr hs, runFor_refused hr hs]
  · rw [runFor_ended hr, runFor_ended hr]

/-! ### A jump to itself -/

/-- The decoder is given the bytes that stand in memory from `eip` on, as far as an instruction can
reach (20_memory.md R45, R57). -/
theorem codeBytes_of_bytes {bs : List Byte} (hlen : bs.length ≤ Config.maxInstrLen)
    (hfit : s.eip.toNat + bs.length ≤ Config.memSize)
    (hread : ∀ (k : Nat) (h : k < bs.length), Memory.read s.mem (s.eip.toNat + k) = bs[k]) :
    ∃ rest, s.codeBytes = bs ++ rest := by
  have hle : bs.length ≤ s.codeBytes.length := by rw [codeBytes_length]; omega
  have hprefix : bs <+: s.codeBytes := by
    rw [List.prefix_iff_getElem?]
    intro k hk
    rw [codeBytes_get (Nat.lt_of_lt_of_le hk hle), hread k hk]
  obtain ⟨rest, hrest⟩ := hprefix
  exact ⟨rest, hrest.symm⟩

/-- A state whose next instruction is `EB FE`, and not at address zero. -/
structure AtSelfJump (s : State) : Prop where
  running : s.run = .running
  nonzero : s.eip ≠ 0#32
  fits : s.eip.toNat + 2 ≤ Config.memSize
  opcode : Memory.read s.mem s.eip.toNat = 0xEB#8
  rel : Memory.read s.mem (s.eip.toNat + 1) = 0xFE#8

theorem AtSelfJump.decode (h : AtSelfJump s) :
    ∃ rest, decode s.codeBytes = .ok (.jmpRel8 0xFE#8, rest) := by
  obtain ⟨rest, hrest⟩ := codeBytes_of_bytes (s := s) (bs := [0xEB#8, 0xFE#8]) (by decide) h.fits
    fun k hk => match k with
      | 0 => h.opcode
      | 1 => h.rel
  rw [hrest]
  exact ⟨rest, decode_of_handler (h := .jmpRel8) (by decide) _⟩

/-- The displacement 0xFE goes back over the two bytes (30_encoding.md R70). -/
theorem relTarget_self (s : State) : s.relTarget 2 (sext32 0xFE#8) = s.eip := by
  have hback : BitVec.ofNat 32 2 + sext32 0xFE#8 = 0#32 := by decide
  rw [State.relTarget, BitVec.add_assoc, hback, BitVec.add_zero]

/-- One step of `EB FE` changes nothing but the trace line (60_exceptions.md R191). -/
theorem AtSelfJump.step_eq (h : AtSelfJump s) : step s = .next s.traceFetch := by
  obtain ⟨rest, hd⟩ := h.decode
  have hexec : exec (.jmpRel8 0xFE#8) s.traceFetch = .next s.traceFetch := by
    rw [exec, execJmpRel8, relTarget_self, finish_ok]; rfl
  have hstay : s.traceFetch.haltAtZero = s.traceFetch := if_neg h.nonzero
  rw [step_decoded h.running (by have := h.fits; omega) hd, hexec, afterHandler_next, hstay]

theorem AtSelfJump.traceFetch (h : AtSelfJump s) : AtSelfJump s.traceFetch :=
  ⟨h.running, h.nonzero, h.fits, h.opcode, h.rel⟩

/-- `EB FE` runs out of any fuel where it stands (60_exceptions.md R191; D28). -/
theorem AtSelfJump.runFor_outOfFuel (h : AtSelfJump s) (n : Nat) :
    ∃ t, State.runFor n s = .outOfFuel t ∧ t.eip = s.eip := by
  induction n generalizing s with
  | zero => exact ⟨s, runFor_zero h.running, rfl⟩
  | succ n ih =>
    obtain ⟨t, ht, heip⟩ := ih h.traceFetch
    exact ⟨t, (runFor_next h.step_eq n).trans ht, heip⟩

end Runs

/-- Settles O13, by induction on the fuel for each of the executor's laws; `EB FE` steps to the
state it started from, but for the trace line. -/
theorem endedRunsTakeNoStep : Obligations.EndedRunsTakeNoStep :=
  ⟨fun s h => ⟨step_ended h, runFor_ended h⟩,
    fun s hr => ⟨runFor_zero hr, fun t n hst => runFor_next hst n,
      fun f n hst => runFor_fault hr hst n⟩,
    fun n s t h => ⟨running_of_outOfFuel h, by rw [h]; rfl, by rw [h]; rfl⟩,
    fun n k s h => runFor_add_of_isEnd k h,
    fun n s hr hz hfit hop hrel => AtSelfJump.runFor_outOfFuel ⟨hr, hz, hfit, hop, hrel⟩ n⟩

end Sys2Proof.Machine

/-! SUPPORT. The start of a run, and the registers' views. -/

namespace Sys2Proof.Machine

/-- Settles O16. -/
theorem resetLeavesTheChosenStart : Obligations.ResetLeavesTheChosenStart := by
  refine ⟨rfl, rfl, rfl, fun r hr => ?_, rfl, fun _ => rfl⟩
  cases r
  case esp => exact absurd rfl hr
  all_goals rfl

/-- Settles O17: the image is read back where it was placed (`Memory.read_place`). -/
theorem launchStartsAsConfigured : Obligations.LaunchStartsAsConfigured := by
  intro l
  refine ⟨fun hv => ⟨_, if_pos hv, rfl, rfl, l.initGpr.get_set_same .esp _,
    fun r hr => l.initGpr.get_set_other _ hr, rfl, fun k hk => ?_, fun a ha => ?_⟩,
    fun hv => if_neg hv⟩
  · rw [Memory.read_place _ _ _ _ hv.2, dif_pos ⟨by omega, by omega⟩]
    simp only [Nat.add_sub_cancel_left]
  · exact (Memory.read_place _ _ _ _ hv.2).trans (dif_neg (by omega))

/-- The high views are those from index 4 on (10_state.md R22). -/
theorem viewHigh_ofIndex (i : BitVec 3) : viewHigh (Reg8.ofIndex i) = decide (4 ≤ i.toNat) := by
  revert i; decide

/-- View `i` lies in register `i`, or from index 4 on in register `i - 4` (10_state.md R22). -/
theorem viewReg_ofIndex (i : BitVec 3) :
    viewReg (Reg8.ofIndex i) =
      if i.toNat < 4 then Reg32.ofIndex i else Reg32.ofIndex (i - 4#3) := by
  revert i; decide

/-- Settles O22, the formula by the two lemmas on a view's index. -/
theorem viewsAliasTheirRegisters : Obligations.ViewsAliasTheirRegisters := by
  refine ⟨by decide, fun g => ⟨fun i => ?_, rfl, rfl, rfl, rfl, rfl, rfl, rfl, rfl⟩⟩
  by_cases h : i.toNat < 4
  · rw [if_pos h, Regs.get8, viewHigh_ofIndex, viewReg_ofIndex, if_neg (by simpa using h), if_pos h]
  · rw [if_neg h, Regs.get8, viewHigh_ofIndex, viewReg_ofIndex, if_pos (by simpa using h), if_neg h]

/-- Settles O23. -/
theorem registerWritesReplaceOnlyTheirBits : Obligations.RegisterWritesReplaceOnlyTheirBits :=
  fun g => ⟨g.get_set, fun i v =>
    ⟨g.get8_set8 i v, (g.get_set8 i v _).trans (if_pos rfl),
      fun q hq => (g.get_set8 i v q).trans (if_neg hq)⟩⟩

end Sys2Proof.Machine

/-! SUPPORT. Memory accesses: the four bytes of a word, the bounds, and the canonical form, which is
the one list for what is read. -/

namespace Sys2Proof.Machine

section MemoryAccesses

variable {s : State} {a : Word}

/-- Address arithmetic below 2^32 does not wrap (20_memory.md R44). -/
theorem toNat_add_ofNat {i : Nat} (h : a.toNat + i < 2 ^ 32) :
    (a + BitVec.ofNat 32 i).toNat = a.toNat + i := by
  simp only [BitVec.toNat_add, BitVec.toNat_ofNat]
  omega

/-- A four-byte read is the sum of its bytes' places (20_memory.md R42). -/
theorem Memory.read32_toNat (m : Memory) (k : Nat) :
    (Memory.read32 m k).toNat =
      (Memory.read m k).toNat + (Memory.read m (k + 1)).toNat * 2 ^ 8 +
      (Memory.read m (k + 2)).toNat * 2 ^ 16 + (Memory.read m (k + 3)).toNat * 2 ^ 24 :=
  le32_toNat _ _ _ _

/-- After a four-byte write each of its bytes is read at its own address (20_memory.md R43). -/
theorem memRead8_of_write32 {t : State} {v : Word} {i : Nat} (ha : InMemory a 4) (hi : i < 4)
    (ht : t.mem = Memory.write32 s.mem a.toNat v) :
    t.memRead8 (a + BitVec.ofNat 32 i) = .ok (byteOf v i) := by
  have hm : a.toNat + 4 ≤ 1048576 := ha
  have hat : (a + BitVec.ofNat 32 i).toNat = a.toNat + i := toNat_add_ofNat (by omega)
  have hin : InMemory (a + BitVec.ofNat 32 i) 1 := by
    rw [InMemory] at ha ⊢
    omega
  rw [memRead8_eq, if_pos hin, hat, ht, Memory.read_write32, if_pos ⟨by omega, by omega⟩,
    Nat.add_sub_cancel_left]

/-- An access that answers when its bytes lie in memory and faults when they do not faults exactly
when they pass MEM_SIZE (20_memory.md R44). -/
theorem faults_iff_beyond {α : Type} {x : Except Fault α} {n : Nat} {v : α} {f : Fault}
    (hx : x = if InMemory a n then .ok v else .error f) :
    x = .error f ↔ Config.memSize < a.toNat + n := by
  rw [← Nat.not_le, hx]
  by_cases h : InMemory a n
  · rw [if_pos h]
    exact ⟨nofun, absurd h⟩
  · rw [if_neg h]
    exact ⟨fun _ => h, fun _ => rfl⟩

/-- What the canonical form says of a memory's first cell and of the rest. -/
theorem Memory.wf_cons {k : Nat} {b : Byte} {m : Memory} (h : Memory.wf ((k, b) :: m)) :
    (∀ c ∈ m, k < c.1) ∧ b ≠ Config.unlistedByte ∧ Memory.wf m := by
  obtain ⟨hsorted, hcells⟩ := h
  obtain ⟨hfirst, hrest⟩ := List.pairwise_cons.mp hsorted
  exact ⟨hfirst, (hcells _ List.mem_cons_self).1, hrest,
    fun c hc => hcells c (List.mem_cons_of_mem _ hc)⟩

/-- At its first cell a canonical memory reads otherwise than one that lists only addresses above
it. -/
theorem Memory.read_ne_of_below {k : Nat} {b : Byte} {m n : Memory}
    (h : Memory.wf ((k, b) :: m)) (hn : ∀ c ∈ n, k < c.1) :
    Memory.read ((k, b) :: m) k ≠ Memory.read n k := by
  rw [Memory.read_cons, if_pos rfl, Memory.read_below hn]
  exact (Memory.wf_cons h).2.1

/-- The first cells of two canonical memories that read alike are equal: at the lower of two
addresses they would read otherwise. -/
theorem Memory.head_eq_of_read_eq {k l : Nat} {b c : Byte} {m n : Memory}
    (hm : Memory.wf ((k, b) :: m)) (hn : Memory.wf ((l, c) :: n))
    (h : ∀ a, Memory.read ((k, b) :: m) a = Memory.read ((l, c) :: n) a) : k = l ∧ b = c := by
  have below {i j : Nat} {e : Byte} {r : Memory} (hr : Memory.wf ((j, e) :: r)) (hij : i < j) :
      ∀ d ∈ (j, e) :: r, i < d.1 := by
    rintro d (_ | ⟨_, hd⟩)
    · exact hij
    · exact Nat.lt_trans hij ((Memory.wf_cons hr).1 d hd)
  obtain hlt | rfl | hlt := Nat.lt_trichotomy k l
  · exact absurd (h k) (Memory.read_ne_of_below hm (below hn hlt))
  · exact ⟨rfl, by simpa [Memory.read_cons] using h k⟩
  · exact absurd (h l).symm (Memory.read_ne_of_below hn (below hm hlt))

/-- Memories that read alike with one first cell below all others read alike without it. -/
theorem Memory.tail_read_eq {k : Nat} {b : Byte} {m n : Memory} (hm : ∀ c ∈ m, k < c.1)
    (hn : ∀ c ∈ n, k < c.1) (h : ∀ a, Memory.read ((k, b) :: m) a = Memory.read ((k, b) :: n) a)
    (a : Nat) : Memory.read m a = Memory.read n a := by
  by_cases ha : a = k
  · rw [ha, Memory.read_below hm, Memory.read_below hn]
  · simpa only [Memory.read_cons, if_neg ha] using h a

/-- The canonical form is the one list for what is read. -/
theorem Memory.eq_of_read_eq {m n : Memory} (hm : Memory.wf m) (hn : Memory.wf n)
    (h : ∀ a, Memory.read m a = Memory.read n a) : m = n := by
  induction m generalizing n with
  | nil =>
    cases n with
    | nil => rfl
    | cons d n => exact absurd (h d.1).symm (Memory.read_ne_of_below hn nofun)
  | cons c m ih =>
    cases n with
    | nil => exact absurd (h c.1) (Memory.read_ne_of_below hm nofun)
    | cons d n =>
      obtain ⟨k, b⟩ := c
      obtain ⟨l, e⟩ := d
      obtain ⟨rfl, rfl⟩ := Memory.head_eq_of_read_eq hm hn h
      obtain ⟨hkm, -, hm⟩ := Memory.wf_cons hm
      obtain ⟨hkn, -, hn⟩ := Memory.wf_cons hn
      rw [ih hm hn (Memory.tail_read_eq hkm hkn h)]

end MemoryAccesses

/-- Settles O24: the written state is read through `Memory.read_write32`, a successful read is its
bytes' sum. -/
theorem memoryAccessesAreLittleEndian : Obligations.MemoryAccessesAreLittleEndian := by
  refine ⟨fun s a v ha => ?_, fun s a v h => ?_⟩
  · refine ⟨_, (memWrite32_eq s a v).trans (if_pos ha), ?_, ?_, ?_, rfl, rfl, rfl, rfl, rfl, rfl⟩
    · rw [memRead32_eq, if_pos ha, Memory.read32_write32]
    · exact fun i hi => memRead8_of_write32 ha hi rfl
    · exact fun b hb => (Memory.read_write32 s.mem a.toNat b v).trans (if_neg hb)
  · rw [memRead32_eq] at h
    split at h
    · cases h
      exact Memory.read32_toNat s.mem a.toNat
    · nomatch h

/-- Settles O25, by what each access can do. -/
theorem accessesOutsideMemoryFault : Obligations.AccessesOutsideMemoryFault :=
  fun s a v b => ⟨faults_iff_beyond (memRead8_eq s a), faults_iff_beyond (memRead32_eq s a),
    faults_iff_beyond (memWrite8_eq s a b), faults_iff_beyond (memWrite32_eq s a v)⟩

/-- Settles O26. -/
theorem canonicalMemoriesThatReadAlikeAreEqual :
    Obligations.CanonicalMemoriesThatReadAlikeAreEqual :=
  fun _ _ => Memory.eq_of_read_eq

/-- Settles O57, by the frame of every instruction. -/
theorem otherBytesAreUnchanged : Obligations.OtherBytesAreUnchanged := by
  intro i s t h
  have hmem := (exec_touches h).mem
  split
  · next hst =>
    rw [hst] at hmem
    exact fun b => congrArg (Memory.read · b) hmem
  · next hst =>
    rw [hst] at hmem
    obtain ⟨hin, hother, -⟩ := hmem
    exact ⟨hin, hother⟩

end Sys2Proof.Machine

/-! SUPPORT. The decoder and the encoder undo each other (30_encoding.md R60 to R84): an encoding
decodes to its instruction, and accepted bytes are an encoding. -/

namespace Sys2Proof

section RoundTrip

variable {α : Type} {op : Byte} {reg : BitVec 3} {bs : List Byte} {x : Except Reject α}
  {k : ModRM → Nat → List Byte → Except Reject α}

/-- Decoding a 32-bit r/m operand's bytes answers what follows makes of any descriptor that names the
operand. -/
theorem decodeModRM_encode32 {d : Rm32} (hwf : d.wf = true)
    (hk : ∀ md : ModRM, md.reg = reg → md.rm32 = d → k md (2 + d.dispLen) bs = x) :
    decodeModRM op (d.encode reg ++ bs) k = x := by
  obtain ⟨md, hreg, hrm, hd⟩ := decodeModRM_rm32 op reg d bs k hwf
  exact hd.trans (hk md hreg hrm)

/-- Decoding an 8-bit r/m operand's bytes answers what follows makes of any descriptor that names the
operand. -/
theorem decodeModRM_encode8 {d : Rm8} (hwf : d.wf = true)
    (hk : ∀ md : ModRM, md.reg = reg → md.rm8 = d → k md (2 + d.dispLen) bs = x) :
    decodeModRM op (d.encode reg ++ bs) k = x := by
  obtain ⟨md, hreg, hrm, hd⟩ := decodeModRM_rm8 op reg d bs k hwf
  exact hd.trans (hk md hreg hrm)

/-- The rows of the forms with a ModRM byte (30_encoding.md R72). -/
theorem handlerOf_modRM :
    handlerOf 0x01#8 = some .addRm32R32 ∧ handlerOf 0x3B#8 = some .cmpR32Rm32 ∧
    handlerOf 0x88#8 = some .movRm8R8 ∧ handlerOf 0x89#8 = some .movRm32R32 ∧
    handlerOf 0x8A#8 = some .movR8Rm8 ∧ handlerOf 0x8B#8 = some .movR32Rm32 ∧
    handlerOf 0x83#8 = some .group83 ∧ handlerOf 0xC7#8 = some .movRm32Imm ∧
    handlerOf 0xFF#8 = some .groupFF := by decide

/-- Decoding an encoded well-formed instruction gives it back, with any bytes after it. -/
theorem decode_encode (i : Instr) (rest : List Byte) (hwf : i.wf = true) :
    decode (encode i ++ rest) = .ok (i, rest) := by
  cases i
  case ret | leave | inAlDx | outDxAl | cmpAlImm8 | pushImm8 | jmpRel8 | intImm8 => rfl
  case jo | jno | jc | jnc | jz | jnz | js | jns | jl | jle => rfl
  case cmpEaxImm32 v | pushImm32 v | jmpRel32 v | callRel32 v =>
    conv_rhs => rw [← le32_byteOf v]
    rfl
  case incR32 | pushR32 | popR32 | movR8Imm | movR32Imm =>
    simp [encode, decode, handlerOf_opPlusReg, decodeHandler]
  case addRm32R32 | cmpR32Rm32 | movRm32R32 | movR32Rm32 =>
    simp only [encode, List.cons_append, decode, code8_cons, handlerOf_modRM, decodeHandler]
    exact decodeModRM_encode32 hwf fun md hreg hrm => by simp [ModRM.reg32, hreg, hrm]
  case movRm8R8 | movR8Rm8 =>
    simp only [encode, List.cons_append, decode, code8_cons, handlerOf_modRM, decodeHandler]
    exact decodeModRM_encode8 hwf fun md hreg hrm => by simp [ModRM.reg8, hreg, hrm]
  case incRm32 =>
    simp only [encode, List.cons_append, decode, code8_cons, handlerOf_modRM, decodeHandler]
    exact decodeModRM_encode32 hwf fun md hreg hrm => by simp [decodeGroupFF, hreg, hrm]
  case addRm32Imm8 | subRm32Imm8 | cmpRm32Imm8 | movRm32Imm =>
    simp only [encode, List.cons_append, List.append_assoc, decode, code8_cons, handlerOf_modRM,
      decodeHandler]
    exact decodeModRM_encode32 hwf fun md hreg hrm => by simp [decodeGroup83, decodeC7, hreg, hrm]

/-- What a handler accepts is a well-formed instruction, and its encoding is the handler's opcode and
the bytes it took. -/
theorem decodeHandler_ok {h : Handler} {i : Instr} {rest : List Byte}
    (hd : decodeHandler h op bs = .ok (i, rest)) :
    i.wf = true ∧ encode i ++ rest = opcodeOf h op :: bs := by
  cases h <;> dsimp only [decodeHandler] at hd
  case ret | leave | inAlDx | outDxAl => cases hd; exact ⟨rfl, rfl⟩
  case incR32 | pushR32 | popR32 => cases hd; exact ⟨rfl, by simp [encode, opcodeOf]⟩
  case cmpAlImm8 | pushImm8 | jmpRel8 | intImm8 | jo | jno | jc | jnc | jz | jnz | js | jns | jl
      | jle =>
    obtain ⟨v, r, rfl, hv⟩ := code8_ok hd
    cases hv
    exact ⟨rfl, rfl⟩
  case cmpEaxImm32 | pushImm32 | jmpRel32 | callRel32 =>
    obtain ⟨v, r, rfl, hv⟩ := code32_ok hd
    cases hv
    exact ⟨rfl, rfl⟩
  case movR8Imm =>
    obtain ⟨v, r, rfl, hv⟩ := code8_ok hd
    cases hv
    exact ⟨rfl, by simp [encode, opcodeOf]⟩
  case movR32Imm =>
    obtain ⟨v, r, rfl, hv⟩ := code32_ok hd
    cases hv
    exact ⟨rfl, by simp [encode, opcodeOf]⟩
  case addRm32R32 | cmpR32Rm32 | movRm32R32 | movR32Rm32 =>
    obtain ⟨md, r, hwf, -, hbs, -, hk⟩ := decodeModRM_ok hd
    cases hk
    exact ⟨hwf, by simp [encode, opcodeOf, ModRM.reg32, hbs]⟩
  case movRm8R8 | movR8Rm8 =>
    obtain ⟨md, r, -, hwf, -, hbs, hk⟩ := decodeModRM_ok hd
    cases hk
    exact ⟨hwf, by simp [encode, opcodeOf, ModRM.reg8, hbs]⟩
  case groupFF =>
    obtain ⟨md, r, hwf, -, hbs, -, hk⟩ := decodeModRM_ok hd
    unfold decodeGroupFF at hk
    split_ifs at hk with h0
    cases hk
    exact ⟨hwf, by simp [encode, opcodeOf, hbs, h0]⟩
  case movRm32Imm =>
    obtain ⟨md, r, hwf, -, hbs, -, hk⟩ := decodeModRM_ok hd
    unfold decodeC7 at hk
    split_ifs at hk with h0
    obtain ⟨v, r, rfl, hv⟩ := code32_ok hk
    cases hv
    exact ⟨hwf, by simp [encode, opcodeOf, hbs, h0]⟩
  case group83 =>
    obtain ⟨md, r, hwf, -, hbs, -, hk⟩ := decodeModRM_ok hd
    unfold decodeGroup83 at hk
    split_ifs at hk with h0 h5 h7
    · obtain ⟨v, r, rfl, hv⟩ := code8_ok hk
      cases hv
      exact ⟨hwf, by simp [encode, opcodeOf, hbs, h0]⟩
    · obtain ⟨v, r, rfl, hv⟩ := code8_ok hk
      cases hv
      exact ⟨hwf, by simp [encode, opcodeOf, hbs, h5]⟩
    · obtain ⟨v, r, rfl, hv⟩ := code8_ok hk
      cases hv
      exact ⟨hwf, by simp [encode, opcodeOf, hbs, h7]⟩

/-- What the decoder accepts is a well-formed instruction whose encoding is the bytes it took. -/
theorem decode_ok {i : Instr} {rest : List Byte} (hd : decode bs = .ok (i, rest)) :
    i.wf = true ∧ encode i ++ rest = bs := by
  obtain ⟨op, tail, rfl, -⟩ := code8_ok hd
  cases hh : handlerOf op with
  | none => nomatch (decode_of_sentinel hh tail).symm.trans hd
  | some h =>
    rw [decode_of_handler hh] at hd
    rw [opcodeOf_handlerOf op h hh]
    exact decodeHandler_ok hd

end RoundTrip

/-- An instruction's encoding has the length of its table (30_encoding.md R83). -/
theorem encode_length (i : Instr) : (encode i).length = i.length := by
  cases i
  case movRm32Imm => exact Laws.EncodeLength.movRm32Imm ..
  case movR8Rm8 => exact Laws.EncodeLength.movR8Rm8 ..
  case movR32Rm32 => exact Laws.EncodeLength.movR32Rm32 ..
  case movRm8R8 => exact Laws.EncodeLength.movRm8R8 ..
  case movRm32R32 => exact Laws.EncodeLength.movRm32R32 ..
  case addRm32R32 => exact Laws.EncodeLength.addRm32R32 ..
  case addRm32Imm8 => exact Laws.EncodeLength.addRm32Imm8 ..
  case subRm32Imm8 => exact Laws.EncodeLength.subRm32Imm8 ..
  case cmpRm32Imm8 => exact Laws.EncodeLength.cmpRm32Imm8 ..
  case cmpR32Rm32 => exact Laws.EncodeLength.cmpR32Rm32 ..
  case incRm32 => exact Laws.EncodeLength.incRm32 ..
  all_goals rfl

theorem MemRef.dispLen_le (m : MemRef) : m.dispLen ≤ 4 := by
  cases m <;> simp [MemRef.dispLen]

theorem Rm32.dispLen_le (d : Rm32) : d.dispLen ≤ 4 := by
  cases d with
  | reg r => exact Nat.zero_le 4
  | mem m => exact m.dispLen_le

theorem Rm8.dispLen_le (d : Rm8) : d.dispLen ≤ 4 := by
  cases d with
  | reg r => exact Nat.zero_le 4
  | mem m => exact m.dispLen_le

/-- No instruction is longer than the longest (30_encoding.md R61). -/
theorem Instr.length_le_maxInstrLen (i : Instr) : i.length ≤ Config.maxInstrLen := by
  cases i
  case movRm32Imm d _ | addRm32Imm8 d _ | subRm32Imm8 d _ | cmpRm32Imm8 d _ | addRm32R32 d _
      | movRm32R32 d _ | cmpR32Rm32 _ d | movR32Rm32 _ d | incRm32 d =>
    exact Nat.le_trans (Nat.add_le_add_left d.dispLen_le _) (by decide)
  case movRm8R8 d _ | movR8Rm8 _ d =>
    exact Nat.le_trans (Nat.add_le_add_left d.dispLen_le _) (by decide)
  all_goals simp [Instr.length, Config.maxInstrLen]

/-- The decoder takes the decoded instruction's length of the bytes it is given (30_encoding.md
R77, R83). -/
theorem length_le_of_decode {bs rest : List Byte} {i : Instr} (hd : decode bs = .ok (i, rest)) :
    i.length ≤ bs.length := by
  obtain ⟨-, hbs⟩ := decode_ok hd
  rw [← hbs, List.length_append, encode_length]
  exact Nat.le_add_right _ _

end Sys2Proof

/-! SUPPORT. What a step fetches. -/

namespace Sys2Proof.Machine

/-- Settles O8: the decoder's window starts with the encoding (`codeBytes_of_bytes`), which decodes
to the instruction (`decode_encode`). -/
theorem stepRunsTheInstructionInMemory : Obligations.StepRunsTheInstructionInMemory := by
  intro s i hr hwf hfit hread
  have hlen : (encode i).length ≤ Config.maxInstrLen :=
    (encode_length i).trans_le i.length_le_maxInstrLen
  have hpos : 0 < (encode i).length := by cases i <;> exact Nat.succ_pos _
  obtain ⟨rest, hcode⟩ := codeBytes_of_bytes hlen hfit hread
  exact step_decoded hr (by omega) (hcode ▸ decode_encode i rest hwf)

/-- Settles O9: the decoder's window ends where memory does. -/
theorem decodedInstructionsLieInMemory : Obligations.DecodedInstructionsLieInMemory := by
  intro s i rest hm hd
  have hlen := length_le_of_decode hd
  rw [codeBytes_length] at hlen
  omega

/-- Settles O10: the wanted bytes reach past the decoder's window but no further than the longest
instruction (`decode_truncated`), so the window was cut off by the end of memory. -/
theorem cutOffInstructionsFaultOnFetch : Obligations.CutOffInstructionsFaultOnFetch := by
  intro s off n hr hm hd
  refine ⟨step_rejected hr hm hd, ?_⟩
  obtain ⟨hpast, hmax⟩ := decode_truncated hd
  rw [codeBytes_length] at hpast
  have hmem : Config.memSize = 1048576 := rfl
  have hten : Config.maxInstrLen = 10 := rfl
  have haddr : (s.eip + BitVec.ofNat 32 off).toNat = s.eip.toNat + off :=
    toNat_add_ofNat (by omega)
  omega

end Sys2Proof.Machine

/-! SUPPORT. The forms the decoder refuses: a SIB byte, a group's reg field that names no form, and a
displacement that is cut off (30_encoding.md R65, R73, R74; 60_exceptions.md R183, R186). -/

namespace Sys2Proof

section Refused

variable {α : Type} {op b : Byte} {reg : BitVec 3} {bs : List Byte}
  {k : ModRM → Nat → List Byte → Except Reject α}

/-- The opcodes that a ModRM byte follows (30_encoding.md R63). -/
def modRMOpcodes : List Byte := [0x01, 0x3B, 0x83, 0x88, 0x89, 0x8A, 0x8B, 0xC7, 0xFF]

/-- The bytes after an opcode with a ModRM byte begin with a descriptor (30_encoding.md R72). -/
theorem decode_modRM (hop : op ∈ modRMOpcodes) :
    ∃ k, ∀ bs, decode (op :: bs) = decodeModRM op bs k := by
  simp only [modRMOpcodes, List.mem_cons, List.not_mem_nil, or_false] at hop
  obtain rfl | rfl | rfl | rfl | rfl | rfl | rfl | rfl | rfl := hop
  all_goals
    simp only [decode, code8_cons, BitVec.ofNat_eq_ofNat, handlerOf_modRM, decodeHandler]
    exact ⟨_, fun _ => rfl⟩

/-- The descriptor handed on has the fields of the ModRM byte (30_encoding.md R63). -/
theorem decodeModRM_fields (op b : Byte) (bs : List Byte)
    (k : ModRM → Nat → List Byte → Except Reject α) :
    decodeModRM op (b :: bs) k =
      decodeModRM op (b :: bs) fun md => k ⟨modField b, regField b, rmField b, md.mem⟩ := rfl

/-- A ModRM byte that needs a SIB byte is refused once that byte is there (30_encoding.md R65; D11). -/
theorem decodeModRM_sib (hmod : modField b ≠ 3#2) (hrm : rmField b = 4#3) (sib : Byte) :
    decodeModRM op (b :: sib :: bs) k =
      .error (.unimplementedForm op (modField b) (regField b) 4#3) := by
  simp [decodeModRM, hmod, hrm]

/-! ### Reg fields that name no form -/

theorem decodeGroup83_unrecognised {md : ModRM} (h : md.reg ∉ [0#3, 5#3, 7#3]) (q : Nat) :
    decodeGroup83 op md q bs = .error (.unimplementedForm op md.mod md.reg md.rm) := by
  simp only [List.mem_cons, List.not_mem_nil, or_false, not_or] at h
  obtain ⟨h0, h5, h7⟩ := h
  rw [decodeGroup83, if_neg h0, if_neg h5, if_neg h7]

theorem decodeGroupFF_unrecognised {md : ModRM} (h : md.reg ≠ 0#3) :
    decodeGroupFF op md bs = .error (.unimplementedForm op md.mod md.reg md.rm) := if_neg h

theorem decodeC7_unrecognised {md : ModRM} (h : md.reg ≠ 0#3) (q : Nat) :
    decodeC7 op md q bs = .error (.unimplementedForm op md.mod md.reg md.rm) := if_neg h

/-- An operand's encoding begins with a ModRM byte that holds the reg field (30_encoding.md R63). -/
theorem Rm32.encode_eq_cons (reg : BitVec 3) (d : Rm32) :
    ∃ b tail, d.encode reg = b :: tail ∧ regField b = reg := by
  cases d with
  | reg r => exact ⟨_, _, rfl, regField_modRMByte ..⟩
  | mem m => cases m <;> exact ⟨_, _, rfl, regField_modRMByte ..⟩

/-- Where what follows an operand refuses its reg field, the refusal names the fields of the operand's
own ModRM byte. -/
theorem decodeModRM_refused {d : Rm32} (hwf : d.wf = true) (rest : List Byte)
    (hk : ∀ md q bs, md.reg = reg →
      k md q bs = .error (.unimplementedForm op md.mod md.reg md.rm)) :
    ∃ b tail, d.encode reg = b :: tail ∧
      decodeModRM op (d.encode reg ++ rest) k =
        .error (.unimplementedForm op (modField b) reg (rmField b)) := by
  obtain ⟨b, tail, henc, hreg⟩ := d.encode_eq_cons reg
  refine ⟨b, tail, henc, ?_⟩
  rw [henc, List.cons_append, decodeModRM_fields, ← List.cons_append, ← henc]
  refine decodeModRM_encode32 hwf fun md _ _ => ?_
  rw [hk _ _ _ hreg, hreg]

/-! ### Displacements that are cut off -/

/-- Reading four bytes where fewer are left runs out there (20_memory.md R45). -/
theorem code32_short (off : Nat) (k : Word → List Byte → Except Reject α) (h : bs.length < 4) :
    code32 off bs k = .error (.truncated off 4) := by
  match bs, h with
  | [], _ | [_], _ | [_, _], _ | [_, _, _], _ => rfl
  | _ :: _ :: _ :: _ :: _, h => simp only [List.length_cons] at h; omega

theorem Reg32.index_eq_four_iff (r : Reg32) : r.index = 4#3 ↔ r = .esp := by
  cases r <;> decide

/-- Where the bytes end inside a memory operand's displacement, decoding runs out at the displacement
(30_encoding.md R65, 60_exceptions.md R186). -/
theorem decodeModRM_cutOff_mem {m : MemRef} {n : Nat} (hwf : m.wf = true)
    (hn : n < m.dispLen) :
    decodeModRM op ((m.encode reg).take (n + 1)) k = .error (.truncated 2 m.dispLen) := by
  cases m with
  | base b => exact absurd hn (Nat.not_lt_zero n)
  | abs d =>
    have hlt : n < 4 := hn
    simp [MemRef.encode, decodeModRM, MemRef.dispLen, code32_short, hlt]
  | disp8 b d =>
    obtain rfl : n = 0 := Nat.lt_one_iff.mp hn
    have hb : b.index ≠ 4#3 := by simpa [MemRef.wf, Reg32.index_eq_four_iff] using hwf
    simp [MemRef.encode, decodeModRM, MemRef.dispLen, hb]
  | disp32 b d =>
    have hb : b.index ≠ 4#3 := by simpa [MemRef.wf, Reg32.index_eq_four_iff] using hwf
    have hlt : n < 4 := hn
    simp [MemRef.encode, decodeModRM, MemRef.dispLen, hb, code32_short, hlt]

/-- Where the bytes end inside an operand's displacement, decoding runs out at the displacement. -/
theorem decodeModRM_cutOff {d : Rm32} {n : Nat} (hwf : d.wf = true) (hpos : 1 ≤ n)
    (hn : n < (d.encode reg).length) :
    decodeModRM op ((d.encode reg).take n) k = .error (.truncated 2 d.dispLen) := by
  rw [Laws.EncodeLength.rm32] at hn
  obtain ⟨n, rfl⟩ := Nat.exists_eq_add_of_le' hpos
  have hdisp : n < d.dispLen := by omega
  cases d with
  | reg r => exact absurd hdisp (Nat.not_lt_zero n)
  | mem m => exact decodeModRM_cutOff_mem hwf hdisp

end Refused

/-- Settles O1, by cases on the instruction (`decode_encode`). -/
theorem decodeUndoesEncode : Obligations.DecodeUndoesEncode := decode_encode

/-- Settles O2, by cases on the handler of the opcode byte (`decode_ok`). -/
theorem decodedBytesReencode : Obligations.DecodedBytesReencode := fun _ _ _ => decode_ok

/-- Settles O4, by looking up every byte in the table. -/
theorem registeredOpcodeBytes : Obligations.RegisteredOpcodeBytes := by
  unfold Obligations.RegisteredOpcodeBytes
  decide +kernel

/-- Settles O6: the reg field is looked at after the descriptor (`decodeModRM_refused`), and the
descriptor's displacement is read before (`decodeModRM_cutOff`). -/
theorem unrecognisedGroupFieldsAreRejected : Obligations.UnrecognisedGroupFieldsAreRejected := by
  obtain ⟨-, -, -, -, -, -, h83, hC7, hFF⟩ := handlerOf_modRM
  refine ⟨fun op reg d rest hwf hop => ?_, fun op reg d n hwf hop hpos hn => ?_⟩
  · obtain ⟨rfl, hreg⟩ | ⟨rfl, hreg⟩ | ⟨rfl, hreg⟩ := hop
    · rw [decode_of_handler h83, decodeHandler]
      exact decodeModRM_refused hwf rest fun md q bs h => decodeGroup83_unrecognised (h ▸ hreg) q
    · rw [decode_of_handler hFF, decodeHandler]
      exact decodeModRM_refused hwf rest fun md q bs h => decodeGroupFF_unrecognised (h ▸ hreg)
    · rw [decode_of_handler hC7, decodeHandler]
      exact decodeModRM_refused hwf rest fun md q bs h => decodeC7_unrecognised (h ▸ hreg) q
  · have hsub : [0x83#8, 0xFF#8, 0xC7#8] ⊆ modRMOpcodes := by decide
    obtain ⟨k, hk⟩ := decode_modRM (hsub hop)
    exact (hk _).trans (decodeModRM_cutOff hwf hpos hn)

end Sys2Proof

/-! SUPPORT. Where a meaning leaves `eip`, and how a step can end (30_encoding.md R76 to R79, R84). -/

namespace Sys2Proof.Machine

section StepEnds

variable {s t : State}

/-! ### The instruction pointer -/

theorem writeRm32_eip {d : Rm32} {v : Word} (h : s.writeRm32 d v = .ok t) : t.eip = s.eip := by
  obtain ⟨r, -, rfl⟩ | ⟨m, -, -, rfl⟩ := writeRm32_cases h <;> rfl

theorem writeRm8_eip {d : Rm8} {v : Byte} (h : s.writeRm8 d v = .ok t) : t.eip = s.eip := by
  obtain ⟨i, -, rfl⟩ | ⟨m, -, -, rfl⟩ := writeRm8_cases h <;> rfl

theorem push_eip {v : Word} (h : s.push v = .ok t) : t.eip = s.eip := by
  obtain ⟨-, rfl⟩ := push_cases h
  rfl

theorem pop_eip {v : Word} (h : s.pop = .ok (v, t)) : t.eip = s.eip := by
  obtain ⟨-, -, rfl⟩ := pop_cases h
  rfl

/-- Past the instruction from a state whose `eip` a meaning has left alone (30_encoding.md R77). -/
theorem advance_eip_of_eq (n : Nat) (h : t.eip = s.eip) :
    (t.advance n).eip = s.eip + BitVec.ofNat 32 n := by
  rw [State.advance_eip, h]

/-- Every instruction but a control transfer moves `eip` past its own bytes (30_encoding.md R77). -/
theorem exec_eip_of_not_transfer {i : Instr} (h : exec i s = .next t)
    (hi : isTransfer i = false) : t.eip = s.eip + BitVec.ofNat 32 i.length := by
  cases i
  case jmpRel8 | jmpRel32 | callRel32 | ret => nomatch hi
  case jo | jno | jc | jnc | jz | jnz | js | jns | jl | jle => nomatch hi
  case movR8Imm | movR32Imm | incR32 | cmpAlImm8 | cmpEaxImm32 | outDxAl =>
    obtain rfl := next_of_pure h
    rfl
  case movRm32Imm | movRm32R32 =>
    obtain ⟨u, hu, h⟩ := next_of_bind h
    obtain rfl := next_of_pure h
    exact advance_eip_of_eq _ (writeRm32_eip hu)
  case movRm8R8 =>
    obtain ⟨u, hu, h⟩ := next_of_bind h
    obtain rfl := next_of_pure h
    exact advance_eip_of_eq _ (writeRm8_eip hu)
  case movR8Rm8 | movR32Rm32 | cmpRm32Imm8 | cmpR32Rm32 =>
    obtain ⟨v, -, h⟩ := next_of_bind h
    obtain rfl := next_of_pure h
    rfl
  case addRm32R32 | addRm32Imm8 | subRm32Imm8 | incRm32 =>
    obtain ⟨l, -, h⟩ := next_of_bind h
    obtain ⟨u, hu, h⟩ := next_of_bind h
    obtain rfl := next_of_pure h
    exact advance_eip_of_eq _ (writeRm32_eip hu :)
  case pushR32 | pushImm8 | pushImm32 =>
    obtain ⟨u, hu, h⟩ := next_of_bind h
    obtain rfl := next_of_pure h
    exact advance_eip_of_eq _ (push_eip hu)
  case popR32 | leave =>
    obtain ⟨⟨v, u⟩, hu, h⟩ := next_of_bind h
    obtain rfl := next_of_pure h
    exact advance_eip_of_eq _ (pop_eip hu :)
  case inAlDx =>
    obtain rfl := next_of_pure h
    exact advance_eip_of_eq _ (s.portRead_eip s.dx)
  case intImm8 vec =>
    obtain rfl := next_of_pure h
    refine advance_eip_of_eq _ ?_
    split <;> rfl

/-- An instruction has at least its opcode byte (30_encoding.md R60). -/
theorem instr_length_pos (i : Instr) : 0 < i.length := by
  rw [← encode_length]
  cases i <;> exact Nat.succ_pos _

/-- An instruction that lies in memory and is no control transfer does not leave `eip` at 0: the
address after its bytes is at most MEM_SIZE and does not wrap. -/
theorem isTransfer_of_eip_zero {i : Instr} (hfit : s.eip.toNat + i.length ≤ Config.memSize)
    (h : exec i s = .next t) (hz : t.eip = 0#32) : isTransfer i = true := by
  by_contra hi
  have heip := exec_eip_of_not_transfer h (Bool.eq_false_of_not_eq_true hi)
  have hmem : Config.memSize = 1048576 := rfl
  have hsum : (s.eip + BitVec.ofNat 32 i.length).toNat = s.eip.toNat + i.length :=
    toNat_add_ofNat (by omega)
  have hpos := instr_length_pos i
  rw [← heip, hz, BitVec.toNat_zero] at hsum
  omega

/-! ### Faults -/

/-- A computation raises nothing but data accesses past the end of memory (60_exceptions.md R184). -/
def OnlyDataFaults {α : Type} (x : Except Fault α) : Prop := ∀ f, x = .error f → IsDataFault f

theorem OnlyDataFaults.ok {α : Type} (a : α) : OnlyDataFaults (.ok a) := fun _ h => nomatch h

theorem OnlyDataFaults.bind {α β : Type} {x : Except Fault α} {k : α → Except Fault β}
    (hx : OnlyDataFaults x) (hk : ∀ a, OnlyDataFaults (k a)) : OnlyDataFaults (x >>= k) := by
  intro f h
  obtain h | ⟨a, -, h⟩ := bind_error.mp h
  · exact hx f h
  · exact hk a f h

/-- Every meaning is a computation that raises only data faults, finished: it is never refused. -/
theorem exec_eq_finish (i : Instr) (s : State) :
    ∃ x, exec i s = finish x ∧ OnlyDataFaults x := by
  cases i
  case movR8Imm | movR32Imm | incR32 | cmpAlImm8 | cmpEaxImm32 | jmpRel8 | jmpRel32 | inAlDx
      | outDxAl | intImm8 => exact ⟨_, rfl, .ok _⟩
  case jo | jno | jc | jnc | jz | jnz | js | jns | jl | jle => exact ⟨_, rfl, .ok _⟩
  case movRm32Imm | movRm32R32 =>
    exact ⟨_, rfl, .bind (fun _ => writeRm32_error) fun _ => .ok _⟩
  case movRm8R8 => exact ⟨_, rfl, .bind (fun _ => writeRm8_error) fun _ => .ok _⟩
  case movR8Rm8 => exact ⟨_, rfl, .bind (fun _ => readRm8_error) fun _ => .ok _⟩
  case movR32Rm32 | cmpRm32Imm8 | cmpR32Rm32 =>
    exact ⟨_, rfl, .bind (fun _ => readRm32_error) fun _ => .ok _⟩
  case addRm32R32 | addRm32Imm8 | subRm32Imm8 | incRm32 =>
    exact ⟨_, rfl, .bind (fun _ => readRm32_error) fun _ =>
      .bind (fun _ => writeRm32_error) fun _ => .ok _⟩
  case pushR32 | pushImm8 | pushImm32 | callRel32 =>
    exact ⟨_, rfl, .bind (fun _ => push_error) fun _ => .ok _⟩
  case popR32 | ret | leave => exact ⟨_, rfl, .bind (fun _ => pop_error) fun _ => .ok _⟩

/-- A meaning answers a next state, or faults on a data access past the end of memory. -/
theorem exec_ends (i : Instr) (s : State) :
    (∃ t, exec i s = .next t) ∨ ∃ f, exec i s = .fault f ∧ IsDataFault f := by
  obtain ⟨x, hx, hdata⟩ := exec_eq_finish i s
  cases x with
  | ok t => exact .inl ⟨t, hx⟩
  | error f => exact .inr ⟨f, hx, hdata f rfl⟩

end StepEnds

/-- Settles O5: the decoder is given the opcode, the ModRM byte and the SIB byte, and refuses the
form. -/
theorem sibFormsFault : Obligations.SibFormsFault := by
  intro s b hr hfit hop hb hmod hrm
  obtain ⟨rest, hcode⟩ := codeBytes_of_bytes (s := s)
    (bs := [Memory.read s.mem s.eip.toNat, b, Memory.read s.mem (s.eip.toNat + 2)])
    (by simp [Config.maxInstrLen]) hfit fun n hn => match n with
      | 0 => rfl
      | 1 => hb
      | 2 => rfl
  obtain ⟨k, hk⟩ := decode_modRM hop
  have hdecode : decode s.codeBytes = .error (.unimplementedForm
      (Memory.read s.mem s.eip.toNat) (modField b) (regField b) 4#3) := by
    rw [hcode, List.cons_append, hk]
    exact decodeModRM_sib hmod hrm _
  exact step_rejected hr (by omega) hdecode

/-- Settles O7, by `step_decoded`. -/
theorem stepRunsTheDecodedInstruction : Obligations.StepRunsTheDecodedInstruction :=
  fun _ _ _ hr hm hd => step_decoded hr hm hd

/-- Settles O12, by `step_outOfRange`. -/
theorem outOfRangeFetchEndsTheRun : Obligations.OutOfRangeFetchEndsTheRun :=
  fun _ => step_outOfRange

/-- Settles O14: the exit out of range, the three ways of the decoder to refuse, the cut-off one by
O10, and the ends of a meaning (`exec_ends`). -/
theorem stepEndsInANamedWay : Obligations.StepEndsInANamedWay := by
  intro s hr
  by_cases hm : s.eip.toNat < Config.memSize
  · match hd : decode s.codeBytes with
    | .error (.unimplementedOpcode op) => exact .inl ⟨_, step_rejected hr hm hd⟩
    | .error (.unimplementedForm op mod reg rm) =>
      exact .inr (.inl ⟨op, mod, reg, rm, step_rejected hr hm hd⟩)
    | .error (.truncated off n) =>
      exact .inr (.inr ⟨_, n, .fetch, cutOffInstructionsFaultOnFetch s off n hr hm hd⟩)
    | .ok (i, rest) =>
      rw [step_decoded hr hm hd]
      obtain ⟨t, ht⟩ | ⟨f, hf, a, n, kind, rfl, -, hpast⟩ := exec_ends i s.traceFetch
      · exact .inl ⟨t.haltAtZero, congrArg afterHandler ht⟩
      · exact .inr (.inr ⟨a, n, kind, congrArg afterHandler hf, hpast⟩)
  · exact .inl ⟨_, step_outOfRange hr (Nat.le_of_not_lt hm)⟩

/-- Settles O15: of what a step can do (`step_cases`) only a decoded instruction that leaves `eip` at
0 ends the run normally, and one that lies in memory (O9) is a control transfer
(`isTransfer_of_eip_zero`). -/
theorem onlyTransfersToZeroHaltNormally : Obligations.OnlyTransfersToZeroHaltNormally := by
  intro s t hst
  obtain ⟨hr, ⟨hm, rfl⟩ | ⟨-, op, hd, rfl⟩ | ⟨hm, i, rest, u, hd, he, rfl⟩⟩ := step_cases hst
  · exact ⟨nofun, fun _ _ hlt => absurd hlt (Nat.not_lt.mpr hm)⟩
  · exact ⟨nofun, fun i rest _ hok => nomatch hd.symm.trans hok⟩
  · have hrun : u.run = .running := (exec_touches he).run.trans hr
    rw [State.haltAtZero_run, State.haltAtZero_eip]
    refine ⟨fun h => ?_, fun _ _ _ _ hz => if_pos hz⟩
    have hz : u.eip = 0#32 := by
      by_contra hne
      rw [if_neg hne, hrun] at h
      nomatch h
    exact ⟨hz, i, rest, hd,
      isTransfer_of_eip_zero (s := s.traceFetch)
        (decodedInstructionsLieInMemory s i rest hm hd) he hz⟩

/-- Settles O58, by cases on the instruction (`exec_eip_of_not_transfer`, `encode_length`). -/
theorem otherInstructionsAdvanceByTheirLength :
    Obligations.OtherInstructionsAdvanceByTheirLength :=
  ⟨fun _ _ _ => exec_eip_of_not_transfer, fun i => (encode_length i).symm,
    Laws.EncodeLength.rm32, Laws.EncodeLength.rm8⟩

end Sys2Proof.Machine

/-! SUPPORT. The move family (40_move.md): what writing an accessible operand leaves, and the
instructions that write one or read one. -/

namespace Sys2Proof.Machine

section Moves

variable {s t u : State}

/-- A meaning whose two parts succeed answers the second one's state. -/
theorem next_of_bind_ok {α : Type} {x : Except Fault α} {k : α → Except Fault State} {a : α}
    (hx : x = .ok a) (hk : k a = .ok t) : finish (x >>= k) = .next t :=
  finish_next.mpr (bind_ok.mpr ⟨a, hx, hk⟩)

/-- An accessible 32-bit operand can be written, and nothing else is (30_encoding.md R68). -/
theorem writeRm32_ok {d : Rm32} (v : Word) (h : Rm32Accessible d s) :
    ∃ u, s.writeRm32 d v = .ok u ∧ Rm32Written d v s u ∧ u.flags = s.flags ∧ u.eip = s.eip ∧
      SameRest s u := by
  cases d with
  | reg r =>
    exact ⟨_, rfl, ⟨regWritten_setReg s r v rfl, fun _ => rfl⟩, rfl, rfl, rfl, rfl, rfl⟩
  | mem m =>
    exact ⟨_, (memWrite32_eq s _ v).trans (if_pos h),
      ⟨fun _ => rfl, storedAt_write32 s _ v rfl⟩, rfl, rfl, rfl, rfl, rfl⟩

/-- An accessible 8-bit operand can be written, and nothing else is (30_encoding.md R68). -/
theorem writeRm8_ok {d : Rm8} (v : Byte) (h : Rm8Accessible d s) :
    ∃ u, s.writeRm8 d v = .ok u ∧ Rm8Written d v s u ∧ u.flags = s.flags ∧ u.eip = s.eip ∧
      SameRest s u := by
  cases d with
  | reg i =>
    exact ⟨_, rfl, ⟨viewWritten_setReg8 s i v rfl, fun _ => rfl⟩, rfl, rfl, rfl, rfl, rfl⟩
  | mem m =>
    exact ⟨_, (memWrite8_eq s _ v).trans (if_pos h),
      ⟨fun _ => rfl, storedAt_write s _ v rfl⟩, rfl, rfl, rfl, rfl, rfl⟩

/-- What is written in an operand does not depend on where `eip` stands. -/
theorem Rm32Written.advance {d : Rm32} {v : Word} (h : Rm32Written d v s u) (n : Nat) :
    Rm32Written d v s (u.advance n) := by
  cases d <;> exact h

theorem Rm8Written.advance {d : Rm8} {v : Byte} (h : Rm8Written d v s u) (n : Nat) :
    Rm8Written d v s (u.advance n) := by
  cases d <;> exact h

/-- A meaning that writes `v` in an accessible 32-bit operand and moves past its bytes completes
(40_move.md R102, R106). -/
theorem writeRm32_advance_completes {d : Rm32} (v : Word) (n : Nat) (h : Rm32Accessible d s) :
    ∃ t, finish (s.writeRm32 d v >>= fun u => pure (u.advance n)) = .next t ∧
      Rm32Written d v s t ∧ t.flags = s.flags ∧ t.eip = s.eip + BitVec.ofNat 32 n ∧
      SameRest s t := by
  obtain ⟨u, hu, hwritten, hflags, heip, hrest⟩ := writeRm32_ok v h
  exact ⟨u.advance n, next_of_bind_ok hu rfl, hwritten.advance n, hflags,
    advance_eip_of_eq n heip, hrest⟩

end Moves

/-- Settles O30: both are one write of the operand (`writeRm32_advance_completes`). -/
theorem movToRegisterOrMemory32 : Obligations.MovToRegisterOrMemory32 :=
  ⟨fun _ v _ h => writeRm32_advance_completes v _ h,
    fun _ r s h => writeRm32_advance_completes (s.reg r) _ h⟩

/-- Settles O31: an accessible source reads as its value (`readRm32_ok`), which the destination
register then holds. -/
theorem movFromRegisterOrMemory32 : Obligations.MovFromRegisterOrMemory32 :=
  ⟨fun r _ s h => ⟨_, next_of_bind_ok (readRm32_ok h) rfl, regWritten_setReg s r _ rfl,
      fun _ => rfl, rfl, rfl, rfl, rfl, rfl⟩,
    fun _ _ _ _ => ⟨rfl, rfl, rfl, rfl⟩⟩

/-- Settles O32: a read of the operand before the view's write, and a write of the operand. -/
theorem movOfBytes : Obligations.MovOfBytes := by
  refine ⟨fun i x s h => ?_, fun d i s h => ?_⟩
  · exact ⟨_, next_of_bind_ok (readRm8_ok h) rfl, viewWritten_setReg8 s i _ rfl,
      fun _ => rfl, rfl, rfl, rfl, rfl, rfl⟩
  · obtain ⟨u, hu, hwritten, hflags, heip, hrest⟩ := writeRm8_ok (s.reg8 i) h
    exact ⟨_, next_of_bind_ok hu rfl, hwritten.advance _, hflags, advance_eip_of_eq _ heip, hrest⟩

/-- Settles O29, by the frames of the two register writes. -/
theorem movImmediateToRegister : Obligations.MovImmediateToRegister :=
  ⟨fun i v s => ⟨_, rfl, viewWritten_setReg8 s i v rfl, fun _ => rfl, rfl, rfl, rfl, rfl, rfl⟩,
    fun r v s => ⟨_, rfl, regWritten_setReg s r v rfl, fun _ => rfl, rfl, rfl, rfl, rfl, rfl⟩⟩

end Sys2Proof.Machine

/-! SUPPORT. The arithmetic and compare family (41_arith_compare.md): the four flags of a subtraction,
and the instructions that update an operand or only compare it. -/

namespace Sys2Proof.Machine

/-! ### SubFlags -/

/-- Every flag from the operands and their difference modulo 2^32 (41_arith_compare.md R110). -/
theorem subFlags_eq (l r : Word) :
    subFlags l r =
      ⟨decide (l.toNat < r.toNat), l - r == 0#32, (l - r).msb,
        (l.msb != r.msb) && (l.msb != (l - r).msb)⟩ := by
  simp only [subFlags, narrowed_difference, exact_difference_neg]

/-- 33 signed bits hold the exact difference of two words, so its bit 32 is its sign, the borrow
(41_arith_compare.md R110). -/
theorem borrow_eq_bit32 (l r : Word) :
    (BitVec.ofInt 33 ((l.toNat : Int) - (r.toNat : Int))).getLsbD 32 =
      decide (l.toNat < r.toNat) := by
  have hexact : (BitVec.ofInt 33 ((l.toNat : Int) - (r.toNat : Int))).toInt =
      (l.toNat : Int) - (r.toNat : Int) := by
    rw [BitVec.toInt_ofInt]
    exact Int.bmod_eq_of_le (by have := r.isLt; omega) (by have := l.isLt; omega)
  calc
    _ = (BitVec.ofInt 33 ((l.toNat : Int) - (r.toNat : Int))).msb :=
      (BitVec.msb_eq_getLsbD_last _).symm
    _ = decide ((l.toNat : Int) - (r.toNat : Int) < 0) := by rw [BitVec.msb_eq_toInt, hexact]
    _ = decide (l.toNat < r.toNat) := exact_difference_neg l r

/-- Zero-extended bytes are below 2^8 and so have no sign: their difference is negative exactly when
it borrows, and it does not overflow (41_arith_compare.md R116; D9). -/
theorem subFlags_zext32 (a b : Byte) :
    subFlags (zext32 a) (zext32 b) =
      ⟨decide (a.toNat < b.toNat), decide (a = b), decide (a.toNat < b.toNat), false⟩ := by
  have hnat (c : Byte) : (zext32 c).toNat = c.toNat :=
    BitVec.toNat_setWidth_of_le (by decide)
  have hmsb (c : Byte) : (zext32 c).msb = false := by
    rw [BitVec.msb_eq_decide, hnat]
    exact decide_eq_false (by have := c.isLt; omega)
  have hzero : (zext32 a - zext32 b == 0#32) = decide (a = b) := by
    rw [Bool.eq_iff_iff]
    simp only [beq_iff_eq, decide_eq_true_eq]
    have := hnat a; have := hnat b
    bv_omega
  have hsign : (zext32 a - zext32 b).msb = decide (a.toNat < b.toNat) := by
    rw [BitVec.msb_eq_decide, BitVec.toNat_sub, hnat, hnat, decide_eq_decide]
    have := a.isLt; have := b.isLt
    omega
  rw [subFlags_eq, hzero, hsign, hnat, hnat, hmsb, hmsb]
  rfl

section ArithCompare

variable {s u : State}

/-! ### Updates -/

/-- What is written in an operand does not depend on the flags. -/
theorem Rm32Written.setFlags {d : Rm32} {v : Word} (h : Rm32Written d v s u) (f : Flags) :
    Rm32Written d v s (u.setFlags f) := by
  cases d <;> exact h

/-- A meaning that replaces an accessible 32-bit operand by `f` of its value and moves past its bytes
completes (41_arith_compare.md R111, R112, R119). -/
theorem updateRm32_advance_completes {d : Rm32} (f : Word → Word) (n : Nat)
    (h : Rm32Accessible d s) :
    ∃ t, finish (s.readRm32 d >>= fun l => s.writeRm32 d (f l) >>= fun u => pure (u.advance n)) =
        .next t ∧
      Rm32Written d (f (rm32Value d s)) s t ∧ t.flags = s.flags ∧
      t.eip = s.eip + BitVec.ofNat 32 n ∧ SameRest s t := by
  rw [readRm32_ok h]
  exact writeRm32_advance_completes (f (rm32Value d s)) n h

end ArithCompare

/-- Settles O27: each flag as `subFlags_eq` gives it; the borrow is bit 32 of the exact difference. -/
theorem subtractionFlagsFollowTheRule : Obligations.SubtractionFlagsFollowTheRule := by
  intro l r
  rw [borrow_eq_bit32, subFlags_eq]
  have hmsb (w : Word) : w.msb = w.getLsbD 31 := BitVec.msb_eq_getLsbD_last w
  refine ⟨rfl, rfl, rfl, hmsb _, ?_, fun _ => rfl⟩
  simp only [hmsb, bne, beq_eq_decide, ne_eq, decide_not]

/-- Settles O33: the three r/m forms are one update each, INC r32 a register write. -/
theorem addAndIncWrapAndKeepFlags : Obligations.AddAndIncWrapAndKeepFlags :=
  ⟨fun _ r s h => updateRm32_advance_completes (· + s.reg r) _ h,
    fun _ v _ h => updateRm32_advance_completes (· + sext32 v) _ h,
    fun r s => ⟨_, rfl, regWritten_setReg s r _ rfl, fun _ => rfl, rfl, rfl, rfl, rfl, rfl⟩,
    fun _ _ h => updateRm32_advance_completes (· + 1#32) _ h⟩

/-- Settles O34: the difference is written in the operand, then the flags of the value it had. -/
theorem subStoresAndSetsFlags : Obligations.SubStoresAndSetsFlags := by
  intro d v s h
  obtain ⟨u, hu, hwritten, -, heip, hrest⟩ := writeRm32_ok (rm32Value d s - sext32 v) h
  exact ⟨_, next_of_bind_ok (readRm32_ok h) (bind_ok.mpr ⟨u, hu, rfl⟩),
    (hwritten.setFlags _).advance _, rfl, advance_eip_of_eq _ heip, hrest⟩

/-- Settles O35: an accessible operand reads as its value (`readRm32_ok`), and only the flags and
`eip` are written after it. -/
theorem compareSetsOnlyFlags : Obligations.CompareSetsOnlyFlags :=
  ⟨fun _ _ _ h => next_of_bind_ok (readRm32_ok h) rfl,
    fun _ _ _ h => next_of_bind_ok (readRm32_ok h) rfl,
    fun _ _ => rfl⟩

/-- Settles O36, by the flags of zero-extended bytes. -/
theorem compareAlUsesThirtyTwoBitFlags : Obligations.CompareAlUsesThirtyTwoBitFlags := by
  intro v s
  rw [← subFlags_zext32]
  rfl

end Sys2Proof.Machine

/-! SUPPORT. The stack family (42_stack.md): what a push in memory leaves, a pop after it, how the
widening of PUSH imm8 may be set, and accesses past the end of memory. -/

namespace Sys2Proof.Machine

section Stack

variable {s t : State}

/-! ### Slots in memory -/

/-- Push completes where its slot lies in memory: ESP is moved, the slot written, and nothing else
is (42_stack.md R130). -/
theorem push_ok (v : Word) (h : InMemory (s.reg .esp - 4#32) 4) :
    ∃ u, s.push v = .ok u ∧ RegWritten .esp (s.reg .esp - 4#32) s u ∧
      StoredAt (s.reg .esp - 4#32).toNat (leBytes v) s u ∧ u.flags = s.flags ∧ u.eip = s.eip ∧
      SameRest s u :=
  ⟨_, push_in h, regWritten_setReg s .esp _ rfl, storedAt_write32 s _ v rfl, rfl, rfl, rfl, rfl,
    rfl⟩

/-- A meaning that pushes `v` and moves past its bytes completes where the slot lies in memory
(42_stack.md R132 to R134). -/
theorem push_advance_completes (v : Word) (n : Nat) (h : InMemory (s.reg .esp - 4#32) 4) :
    ∃ t, finish (s.push v >>= fun u => pure (u.advance n)) = .next t ∧
      RegWritten .esp (s.reg .esp - 4#32) s t ∧
      StoredAt (s.reg .esp - 4#32).toNat (leBytes v) s t ∧ t.flags = s.flags ∧
      t.eip = s.eip + BitVec.ofNat 32 n ∧ SameRest s t := by
  obtain ⟨u, hu, hesp, hslot, hflags, heip, hrest⟩ := push_ok v h
  exact ⟨u.advance n, next_of_bind_ok hu rfl, hesp, hslot, hflags, advance_eip_of_eq n heip, hrest⟩

/-- After a push, from wherever `eip` then stands, a pop answers the pushed value and moves ESP back
(42_stack.md R130, R131). -/
theorem pop_after_push {v a : Word} (h : s.push v = .ok t) :
    (t.jumpTo a).pop = .ok (v, (t.jumpTo a).setReg .esp (s.reg .esp)) := by
  obtain ⟨hin, ht⟩ := push_cases h
  have hesp : (t.jumpTo a).reg .esp = s.reg .esp - 4#32 := by
    rw [ht]
    exact s.regs.get_set_same .esp _
  have hmem : (t.jumpTo a).mem = Memory.write32 s.mem (s.reg .esp - 4#32).toNat v := by rw [ht]; rfl
  rw [pop_in (hesp ▸ hin), hesp, hmem, Memory.read32_write32, BitVec.sub_add_cancel]

/-! ### The widening of PUSH imm8 -/

theorem widenPushImm8_of_sign (b : Byte) (h : Config.pushImm8Ext = .sign) :
    widenPushImm8 b = b.signExtend 32 := by rw [widenPushImm8, h]; rfl

theorem widenPushImm8_of_zero (b : Byte) (h : Config.pushImm8Ext = .zero) :
    widenPushImm8 b = b.zeroExtend 32 := by rw [widenPushImm8, h]; rfl

/-- Below 0x80 an immediate has no sign, so both settings widen it alike (42_stack.md R133). -/
theorem widenPushImm8_of_small {b : Byte} (h : b.toNat < 128) :
    widenPushImm8 b = b.zeroExtend 32 := by
  cases hext : Config.pushImm8Ext with
  | sign =>
    have hmsb : b.msb = false := by rw [BitVec.msb_eq_decide]; exact decide_eq_false (by omega)
    rw [widenPushImm8_of_sign b hext, BitVec.signExtend_eq_setWidth_of_msb_false hmsb]
  | zero => exact widenPushImm8_of_zero b hext

/-! ### Slots outside memory -/

/-- A meaning whose first part faults ends in that fault. -/
theorem fault_of_bind_error {α : Type} {x : Except Fault α} {k : α → Except Fault State} {f : Fault}
    (hx : x = .error f) : finish (x >>= k) = .fault f :=
  finish_fault.mpr (bind_error.mpr (.inl hx))

/-- Below 4, ESP less 4 wraps to an address past the end of memory (42_stack.md R130; D2). -/
theorem slot_beyond_of_esp_lt {w : Word} (h : w.toNat < 4) :
    Config.memSize < (w - 4#32).toNat + 4 := by
  have hmem : Config.memSize = 1048576 := rfl
  rw [hmem]
  bv_omega

end Stack

/-- Settles O37: the three forms are one push each (`push_advance_completes`), PUSH imm8 of what the
open setting makes of its immediate. -/
theorem pushStoresBelowTheStack : Obligations.PushStoresBelowTheStack := by
  refine fun s h => ⟨fun r => push_advance_completes (s.reg r) 1 h, fun v => ?_,
    fun v => push_advance_completes v 5 h⟩
  obtain ⟨t, ht, hframe⟩ := push_advance_completes (widenPushImm8 v) 2 h
  exact ⟨t, widenPushImm8 v, ht, widenPushImm8_of_sign v, widenPushImm8_of_zero v, hframe⟩

/-- Settles O38: both push the same value (`widenPushImm8_of_small`), so both fault or both leave the
same state but for `eip`. -/
theorem smallPushImmediatesNeedNoSetting : Obligations.SmallPushImmediatesNeedNoSetting := by
  intro v s hv
  rw [exec, exec, execPushImm8, execPushImm32, widenPushImm8_of_small hv]
  cases hpush : s.push (v.zeroExtend 32) with
  | error f => rfl
  | ok u =>
    rw [← push_eip hpush]
    rfl

/-- Settles O39: the destination is written after ESP, so it wins where it is ESP (D13). -/
theorem popLoadsFromTheStack : Obligations.PopLoadsFromTheStack :=
  fun d s h => ⟨_, next_of_bind_ok (pop_in h) rfl, fun q => by simp, fun _ => rfl, rfl, rfl, rfl,
    rfl, rfl⟩

/-- Settles O40: the pop answers the register's old value and moves ESP back (`pop_after_push`), so
each of the two registers it writes holds its old value again. -/
theorem pushThenPopRestoresTheRegisters : Obligations.PushThenPopRestoresTheRegisters := by
  intro r s h
  have hpush := push_in (v := s.reg r) h
  refine ⟨_, _, next_of_bind_ok hpush rfl, next_of_bind_ok (pop_after_push hpush) rfl,
    Regs.ext_get fun q => ?_⟩
  simp only [State.advance_regs, State.setReg_regs, State.jumpTo_regs, Regs.get_set]
  by_cases hr : q = r
  · rw [if_pos hr, hr]; rfl
  · by_cases hesp : q = .esp
    · rw [if_neg hr, if_pos hesp, hesp]; rfl
    · rw [if_neg hr, if_neg hesp, if_neg hesp]

/-- Settles O52: each form begins with the push or pop that faults; LEAVE's pop is at EBP, which it
has moved to ESP. -/
theorem stackAccessesOutsideMemoryFault : Obligations.StackAccessesOutsideMemoryFault := by
  refine fun s => ⟨fun h r v w i hi => ?_, slot_beyond_of_esp_lt, fun h r i hi => ?_, fun h => ?_⟩
  · have hpush (x : Word) := push_out (v := x) (Nat.not_le.mpr h)
    simp only [List.mem_cons, List.not_mem_nil, or_false] at hi
    obtain rfl | rfl | rfl | rfl := hi
    all_goals exact fault_of_bind_error (hpush _)
  · have hpop := pop_out (Nat.not_le.mpr h)
    simp only [List.mem_cons, List.not_mem_nil, or_false] at hi
    obtain rfl | rfl := hi
    all_goals exact fault_of_bind_error hpop
  · have hesp : (s.setReg .esp (s.reg .ebp)).reg .esp = s.reg .ebp := by simp
    rw [← hesp] at h ⊢
    exact fault_of_bind_error (pop_out (Nat.not_le.mpr h))

end Sys2Proof.Machine

/-! SUPPORT. The control family (43_control.md): the signed readings of a comparison's flags, what a
conditional jump answers, and a stack pointer set back to what it was. -/

namespace Sys2Proof.Machine

/-! ### Signed readings of the flags -/

/-- OF is the library's signed overflow of a subtraction (41_arith_compare.md R110). -/
theorem subFlags_of (l r : Word) : (subFlags l r).of = l.ssubOverflow r := by
  rw [subFlags_eq, BitVec.ssubOverflow_eq]
  cases l.msb <;> cases r.msb <;> cases (l - r).msb <;> rfl

theorem subFlags_sf (l r : Word) : (subFlags l r).sf = (l - r).msb := by rw [subFlags_eq]

theorem subFlags_zf (l r : Word) : (subFlags l r).zf = decide (l = r) := by
  rw [subFlags_eq, Bool.eq_iff_iff, beq_iff_eq, decide_eq_true_iff]
  exact sub_eq_zero

/-- A subtraction overflows only between operands of different signs, and then its result has not the
sign of the left one (41_arith_compare.md R110). -/
theorem signs_of_ssubOverflow {l r : Word} (h : l.ssubOverflow r = true) :
    r.msb = !l.msb ∧ (l - r).msb = !l.msb := by
  rw [← subFlags_of, subFlags_eq, Bool.and_eq_true, bne_iff_ne, bne_iff_ne] at h
  obtain ⟨hr, hdiff⟩ := h
  exact ⟨Bool.eq_not.mpr hr.symm, Bool.eq_not.mpr hdiff.symm⟩

/-- Without overflow SF is the sign of the exact difference; with it the operands differ in sign and
SF is the opposite of the left one's (43_control.md R151). -/
theorem subFlags_less (l r : Word) : (subFlags l r).less = decide (l.toInt < r.toInt) := by
  rw [Flags.less, subFlags_sf, subFlags_of]
  cases hover : l.ssubOverflow r with
  | false =>
    have hexact := BitVec.toInt_sub_of_not_ssubOverflow (Bool.not_eq_true _ ▸ hover)
    rw [Bool.bne_false, BitVec.msb_eq_toInt, hexact, decide_eq_decide]
    exact sub_neg
  | true =>
    obtain ⟨hr, hsf⟩ := signs_of_ssubOverflow hover
    have hopposite : r.toInt < 0 ↔ ¬l.toInt < 0 := by
      rw [← decide_eq_decide, decide_not, ← BitVec.msb_eq_toInt, ← BitVec.msb_eq_toInt, hr]
    rw [hsf, Bool.bne_true, Bool.not_not, BitVec.msb_eq_toInt, decide_eq_decide]
    omega

/-! ### Conditional jumps, and a register set back -/

theorem jumpIf_eq (c : Bool) (rel : Byte) (s : State) :
    jumpIf c rel s =
      .next { s with
        eip := if c then s.eip + 2#32 + rel.signExtend 32 else s.eip + 2#32 } := by
  cases c <;> rfl

theorem Regs.set_set_get (g : Regs) (r : Reg32) (v : Word) : (g.set r v).set r (g.get r) = g := by
  refine Regs.ext_get fun q => ?_
  rw [Regs.get_set, Regs.get_set]
  by_cases hq : q = r
  · rw [if_pos hq, hq]
  · rw [if_neg hq, if_neg hq]

/-- Settles O28: JLE's condition adds ZF, equality, to JL's (`subFlags_less`), and OF is the library's
signed overflow (`subFlags_of`). -/
theorem signedConditionsAfterCompare : Obligations.SignedConditionsAfterCompare := by
  refine fun l r => ⟨subFlags_less l r, ?_, ?_, subFlags_zf l r⟩
  · calc (subFlags l r).lessOrEqual
        = ((subFlags l r).zf || (subFlags l r).less) := rfl
      _ = (decide (l = r) || decide (l.toInt < r.toInt)) := by rw [subFlags_zf, subFlags_less]
      _ = decide (l.toInt ≤ r.toInt) := by
        rw [← Bool.decide_or, decide_eq_decide, ← BitVec.toInt_inj]
        omega
  · rw [subFlags_of, BitVec.ssubOverflow, ← Bool.decide_or, decide_eq_decide]
    omega

/-- Settles O43: one push (`push_ok`), then `eip` is set. -/
theorem callPushesTheReturnAddress : Obligations.CallPushesTheReturnAddress := by
  intro d s h
  obtain ⟨u, hu, hesp, hslot, hflags, -, hrest⟩ := push_ok (s.eip + 5#32) h
  exact ⟨_, next_of_bind_ok hu rfl, hesp, hslot, hflags, rfl, hrest⟩

/-- Settles O44: one pop (`pop_in`), whose value `eip` is set to. -/
theorem returnPopsTheTarget : Obligations.ReturnPopsTheTarget :=
  fun s h => ⟨_, next_of_bind_ok (pop_in h) rfl, rfl, regWritten_setReg s .esp _ rfl, fun _ => rfl,
    rfl, rfl, rfl, rfl⟩

/-- Settles O45: RET pops what CALL pushed, wherever CALL went (`pop_after_push`), and so sets ESP
back. -/
theorem returnComesBackFromCall : Obligations.ReturnComesBackFromCall := by
  intro d s h
  have hpush := push_in (v := s.eip + 5#32) h
  exact ⟨_, _, next_of_bind_ok hpush rfl, next_of_bind_ok (pop_after_push hpush) rfl, rfl,
    Regs.set_set_get s.regs .esp _⟩

/-- Settles O46: the pop is made where EBP has been moved to ESP; EBP, written last, does not touch
ESP. -/
theorem leaveTearsDownTheFrame : Obligations.LeaveTearsDownTheFrame := by
  intro s h
  have hesp : (s.setReg .esp (s.reg .ebp)).reg .esp = s.reg .ebp := by simp
  have hpop := pop_in (s := s.setReg .esp (s.reg .ebp)) (hesp.symm ▸ h)
  rw [hesp] at hpop
  refine ⟨_, next_of_bind_ok hpop rfl, ?_, ?_, fun q hq hq' => ?_, fun _ => rfl, rfl, rfl, rfl, rfl,
    rfl⟩
  · simp
  · simp
  · simp [hq, hq']

/-- Settles O41, by what each of the two jumps sets `eip` to. -/
theorem jumpsReachTheirTargets : Obligations.JumpsReachTheirTargets :=
  ⟨fun _ _ => rfl, fun _ _ => rfl⟩

/-- Settles O42: each of the ten is `jumpIf` of its own condition (`jumpIf_eq`). -/
theorem conditionalJumpsFollowTheirFlags : Obligations.ConditionalJumpsFollowTheirFlags := by
  intro d s i c h
  simp only [List.mem_cons, List.not_mem_nil, or_false, Prod.mk.injEq] at h
  obtain ⟨rfl, rfl⟩ | ⟨rfl, rfl⟩ | ⟨rfl, rfl⟩ | ⟨rfl, rfl⟩ | ⟨rfl, rfl⟩ | ⟨rfl, rfl⟩ | ⟨rfl, rfl⟩ |
    ⟨rfl, rfl⟩ | ⟨rfl, rfl⟩ | ⟨rfl, rfl⟩ := h
  all_goals exact jumpIf_eq _ d s

end Sys2Proof.Machine

/-! SUPPORT. Port I/O and the software interrupt (44_io_interrupt.md): each of the three instructions
makes one collaborator call, and what that call puts on the output stream. -/

namespace Sys2Proof.Machine

/-! ### The output stream -/

/-- A call's bytes come after those of the calls before it (60_exceptions.md R194). -/
theorem outputStream_of_hostLog {s t : State} {e : HostEvent} (h : t.hostLog = s.hostLog ++ [e]) :
    t.outputStream = s.outputStream ++ outputOf e := by
  rw [State.outputStream, State.outputStream, h, List.flatMap_append, List.flatMap_singleton]

/-! ### IN and INT -/

theorem exec_inAlDx (s : State) :
    exec .inAlDx s =
      .next (((s.portRead s.dx).2.setReg8 .al (s.portRead s.dx).1).advance 1) := rfl

/-- The collaborator call of INT (44_io_interrupt.md R172, R174). -/
def interruptCall (vec : Byte) (s : State) : HostEvent :=
  if vec = Config.videoVector then
    .biosVideo (s.reg8 .ah) (s.reg8 .al) ((s.reg .ebx).extractLsb' 0 4)
  else .unknownInterrupt vec

theorem exec_intImm8 (vec : Byte) (s : State) :
    exec (.intImm8 vec) s = .next ((s.call (interruptCall vec s)).advance 2) := by
  rw [exec, execIntImm8, finish_ok, interruptCall]
  split <;> rfl

/-- The colour of the video call is the low three bits of BL, its brightness bit 3
(60_exceptions.md R195; D25). -/
theorem outputOf_interruptCall (vec : Byte) (s : State) :
    outputOf (interruptCall vec s) =
      if vec = Config.videoVector ∧ s.reg8 .ah = Config.teletypeFunction then
        Config.teletypeBytes (s.reg8 .al) ((s.reg .ebx).extractLsb' 0 3) ((s.reg .ebx).getLsbD 3)
      else [] := by
  have hcolor : ((s.reg .ebx).extractLsb' 0 4).extractLsb' 0 3 = (s.reg .ebx).extractLsb' 0 3 :=
    BitVec.extractLsb'_extractLsb'_of_le (by decide)
  have hbright : ((s.reg .ebx).extractLsb' 0 4).getLsbD 3 = (s.reg .ebx).getLsbD 3 :=
    BitVec.getLsbD_extractLsb' ..
  rw [interruptCall, ite_and]
  split
  · rw [outputOf, hcolor, hbright]
  · rfl

/-- Settles O47: the port is read, which answers the byte (`State.portRead_value`) and keeps all but
the log and the count; then AL is written. -/
theorem inReadsThePort : Obligations.InReadsThePort := by
  intro s
  refine ⟨_, (s.portRead s.dx).1, exec_inAlDx s, s.portRead_value s.dx,
    viewWritten_setReg8 s .al _ ?_, fun a => ?_, s.portRead_flags s.dx, ?_, s.portRead_run s.dx,
    s.portRead_hostLog s.dx, s.portRead_consoleReads s.dx⟩
  · rw [State.advance_regs, State.setReg8_regs, State.portRead_regs]
  · rw [State.advance_mem, State.setReg8_mem, State.portRead_mem]
  · rw [State.advance_eip, State.setReg8_eip, State.portRead_eip]

/-- Settles O48: the one call is the port write, whose bytes the stream gains. -/
theorem outWritesThePort : Obligations.OutWritesThePort := fun s =>
  ⟨_, rfl, rfl, outputStream_of_hostLog (e := .portWrite s.dx (s.reg8 .al)) rfl⟩

/-- Settles O49: INT makes one call and moves `eip` (`exec_intImm8`), and the stream gains that call's
bytes (`outputOf_interruptCall`). -/
theorem intCallsAServiceAndTakesNoTrap : Obligations.IntCallsAServiceAndTakesNoTrap := by
  refine ⟨exec_intImm8, fun vec s => ⟨_, exec_intImm8 vec s, ?_⟩, fun _ _ _ => rfl⟩
  rw [outputStream_of_hostLog rfl, outputOf_interruptCall]
  rfl

/-- Settles O50: for another vector the one call of INT (`exec_intImm8`) is the report. -/
theorem unknownVectorsAreReportedAndIgnored : Obligations.UnknownVectorsAreReportedAndIgnored := by
  intro vec s hvec
  have hcall : interruptCall vec s = .unknownInterrupt vec := if_neg hvec
  exact ⟨_, exec_intImm8 vec s, rfl, rfl, rfl, rfl, rfl, rfl, by rw [hcall]; rfl, rfl⟩

end Sys2Proof.Machine

/-! SUPPORT. Ends of a run (60_exceptions.md R181, R198, R203): when a dump is reported and what it
holds, and the halt at an unregistered opcode byte. -/

namespace Sys2Proof.Machine

section Ends

variable {s : State}

/-- The bits of the flags word (10_state.md R30; D22). -/
theorem Flags.word_getLsbD (f : Flags) (k : Nat) :
    f.word.getLsbD k =
      if k = 0 then f.cf else if k = 6 then f.zf else if k = 7 then f.sf
      else if k = 11 then f.of else false := by
  have hlow : ∀ (c z g o : Bool) (k : Fin 32), (Flags.word ⟨c, z, g, o⟩).getLsbD k =
      if k.val = 0 then c else if k.val = 6 then z else if k.val = 7 then g
      else if k.val = 11 then o else false := by decide
  by_cases hk : k < 32
  · exact hlow f.cf f.zf f.sf f.of ⟨k, hk⟩
  · rw [BitVec.getLsbD_of_ge _ k (Nat.le_of_not_lt hk), if_neg (by omega), if_neg (by omega),
      if_neg (by omega), if_neg (by omega)]

/-- The values a dump reports, whichever clean end it comes after (60_exceptions.md R198). -/
def dumpValues (s : State) : Dump where
  regs := [.eax, .ecx, .edx, .ebx, .esp, .ebp, .esi, .edi].map fun r => (r, s.reg r)
  eip := s.eip
  flags := s.flags.word

/-- A dump is reported after a clean end and at no other run value (60_exceptions.md R198, R203;
log 11). -/
theorem dump_eq (s : State) : s.dump = if s.run.cleanEnd then some (dumpValues s) else none := by
  unfold State.dump
  split
  all_goals next hr => rw [hr]; rfl

theorem dump_isSome (s : State) : s.dump.isSome = s.run.cleanEnd := by
  rw [dump_eq]
  cases s.run.cleanEnd <;> rfl

theorem dump_some {d : Dump} (h : s.dump = some d) : d = dumpValues s := by
  rw [dump_eq, Option.ite_none_right_eq_some] at h
  exact (Option.some.inj h.2).symm

/-- The step at an unregistered opcode byte is the halt that names it (60_exceptions.md R182). -/
theorem step_unregistered (hr : s.run = .running) (hm : s.eip.toNat < Config.memSize)
    (hop : handlerOf (Memory.read s.mem s.eip.toNat) = none) :
    step s = .next (s.traceFetch.raiseOpcode (Memory.read s.mem s.eip.toNat)) := by
  obtain ⟨rest, hcode⟩ := codeBytes_cons hm
  exact step_rejected hr hm (hcode ▸ decode_of_sentinel hop rest)

end Ends

/-- Settles O60: when there is a dump (`dump_isSome`), what it holds (`dump_some`), and the bits of
its flags word (`Flags.word_getLsbD`). -/
theorem endsOfARun : Obligations.EndsOfARun := by
  refine ⟨fun _ => rfl, fun _ _ _ _ => rfl, fun _ _ _ => rfl, dump_isSome, fun s d h => ?_⟩
  rw [dump_some h]
  exact ⟨rfl, rfl, s.flags.word_getLsbD⟩

/-- Settles O11: the trace line and the run value are all the step changes (`step_unregistered`), and
the run value is a clean end. -/
theorem unregisteredOpcodeHaltsPrecisely : Obligations.UnregisteredOpcodeHaltsPrecisely :=
  fun _ hr hm hop => ⟨_, step_unregistered hr hm hop, rfl, rfl, rfl, rfl, rfl, rfl, dump_isSome _⟩

end Sys2Proof.Machine

/-! SUPPORT. Faults of the meanings (60_exceptions.md R184, R186): a memory operand past the end of
memory. -/

namespace Sys2Proof.Machine

section OperandFaults

variable {s : State} {m : MemRef}

theorem readRm32_out (h : ¬InMemory (MemRef.ea m s) 4) :
    s.readRm32 (.mem m) = .error (.outOfBounds (MemRef.ea m s) 4 .read) :=
  (readRm32_eq s _).trans (if_neg h)

theorem writeRm32_out (v : Word) (h : ¬InMemory (MemRef.ea m s) 4) :
    s.writeRm32 (.mem m) v = .error (.outOfBounds (MemRef.ea m s) 4 .write) :=
  (writeRm32_eq s _ v).trans (if_neg h)

theorem readRm8_out (h : ¬InMemory (MemRef.ea m s) 1) :
    s.readRm8 (.mem m) = .error (.outOfBounds (MemRef.ea m s) 1 .read) :=
  (readRm8_eq s _).trans (if_neg h)

theorem writeRm8_out (v : Byte) (h : ¬InMemory (MemRef.ea m s) 1) :
    s.writeRm8 (.mem m) v = .error (.outOfBounds (MemRef.ea m s) 1 .write) :=
  (writeRm8_eq s _ v).trans (if_neg h)

end OperandFaults

/-- Settles O51: each form begins with the access that faults. -/
theorem operandsOutsideMemoryFault : Obligations.OperandsOutsideMemoryFault := by
  refine fun m s => ⟨fun h r v w => ⟨fun i hi => ?_, fun i hi => ?_⟩, fun h r => ⟨?_, ?_⟩⟩
  · have hread := readRm32_out (Nat.not_le.mpr h)
    simp only [List.mem_cons, List.not_mem_nil, or_false] at hi
    obtain rfl | rfl | rfl | rfl | rfl | rfl | rfl := hi
    all_goals exact fault_of_bind_error hread
  · have hwrite (x : Word) := writeRm32_out x (Nat.not_le.mpr h)
    simp only [List.mem_cons, List.not_mem_nil, or_false] at hi
    obtain rfl | rfl := hi
    all_goals exact fault_of_bind_error (hwrite _)
  · exact fault_of_bind_error (readRm8_out (Nat.not_le.mpr h))
  · exact fault_of_bind_error (writeRm8_out _ (Nat.not_le.mpr h))

/-- Settles O53, by the two ends of a meaning (`exec_ends`). -/
theorem meaningsFaultOnlyOnDataBounds : Obligations.MeaningsFaultOnlyOnDataBounds := by
  intro i s
  obtain ⟨t, ht⟩ | ⟨f, hf, hdata⟩ := exec_ends i s
  · exact ⟨fun r hr => (nomatch ht.symm.trans hr), fun f hf => nomatch ht.symm.trans hf⟩
  · refine ⟨fun r hr => (nomatch hf.symm.trans hr), fun g hg => ?_⟩
    cases hf.symm.trans hg
    exact hdata

end Sys2Proof.Machine

/-! SUPPORT. The host's log is written and never read: from another log every meaning and every step
does the same, and appends the same calls to it (60_exceptions.md R192, R194, R197). -/

namespace Sys2Proof.Machine

section HostLog

variable {s t : State} (log : List HostEvent)

/-- The same machine with another log. -/
def State.setHostLog (s : State) (log : List HostEvent) : State := { s with hostLog := log }

/-- The calls an instruction makes: one for IN, OUT and INT, none for any other (60_exceptions.md
R192). -/
def hostCalls (i : Instr) (s : State) : List HostEvent :=
  match i with
  | .inAlDx => [.portRead s.dx (s.portRead s.dx).1]
  | .outDxAl => [.portWrite s.dx (s.reg8 .al)]
  | .intImm8 vec => [interruptCall vec s]
  | _ => []

/-- The trace line of the opcode at `eip`, where TRACE is on (60_exceptions.md R197). -/
def traceLine (s : State) : List HostEvent :=
  if Config.trace then [.trace (Memory.read s.mem s.eip.toNat) s.eip] else []

/-! ### Updates and shared operations from another log -/

@[simp] theorem setHostLog_reg (r : Reg32) : (s.setHostLog log).reg r = s.reg r := rfl
@[simp] theorem setHostLog_reg8 (i : Reg8) : (s.setHostLog log).reg8 i = s.reg8 i := rfl
@[simp] theorem setHostLog_eip : (s.setHostLog log).eip = s.eip := rfl
@[simp] theorem setHostLog_mem : (s.setHostLog log).mem = s.mem := rfl
@[simp] theorem relTarget_setHostLog (n : Nat) (rel : Word) :
    (s.setHostLog log).relTarget n rel = s.relTarget n rel := rfl
@[simp] theorem setReg_setHostLog (r : Reg32) (v : Word) :
    (s.setHostLog log).setReg r v = (s.setReg r v).setHostLog log := rfl
@[simp] theorem setReg8_setHostLog (i : Reg8) (v : Byte) :
    (s.setHostLog log).setReg8 i v = (s.setReg8 i v).setHostLog log := rfl
@[simp] theorem setFlags_setHostLog (f : Flags) :
    (s.setHostLog log).setFlags f = (s.setFlags f).setHostLog log := rfl
@[simp] theorem advance_setHostLog (n : Nat) :
    (s.setHostLog log).advance n = (s.advance n).setHostLog log := rfl
@[simp] theorem jumpTo_setHostLog (a : Word) :
    (s.setHostLog log).jumpTo a = (s.jumpTo a).setHostLog log := rfl

@[simp] theorem ea_setHostLog (m : MemRef) : MemRef.ea m (s.setHostLog log) = MemRef.ea m s := by
  cases m <;> rfl

@[simp] theorem readRm32_setHostLog (d : Rm32) :
    (s.setHostLog log).readRm32 d = s.readRm32 d := by
  cases d <;> simp [readRm32_eq]

@[simp] theorem readRm8_setHostLog (d : Rm8) : (s.setHostLog log).readRm8 d = s.readRm8 d := by
  cases d <;> simp [readRm8_eq]

@[simp] theorem writeRm32_setHostLog (d : Rm32) (v : Word) :
    (s.setHostLog log).writeRm32 d v = (·.setHostLog log) <$> s.writeRm32 d v := by
  cases d with
  | reg r => rfl
  | mem m =>
    simp only [writeRm32_eq, ea_setHostLog]
    split <;> rfl

@[simp] theorem writeRm8_setHostLog (d : Rm8) (v : Byte) :
    (s.setHostLog log).writeRm8 d v = (·.setHostLog log) <$> s.writeRm8 d v := by
  cases d with
  | reg i => rfl
  | mem m =>
    simp only [writeRm8_eq, ea_setHostLog]
    split <;> rfl

@[simp] theorem push_setHostLog (v : Word) :
    (s.setHostLog log).push v = (·.setHostLog log) <$> s.push v := by
  rw [push_eq s, apply_ite (Functor.map _)]
  exact push_eq (s.setHostLog log) v

@[simp] theorem pop_setHostLog :
    (s.setHostLog log).pop = (fun p => (p.1, p.2.setHostLog log)) <$> s.pop := by
  rw [pop_eq s, apply_ite (Functor.map _)]
  exact pop_eq (s.setHostLog log)

theorem jumpIf_setHostLog (c : Bool) (rel : Byte) :
    jumpIf c rel (s.setHostLog log) = onNext (·.setHostLog log) (jumpIf c rel s) := by
  cases c <;> rfl

/-- A port answers whatever the log holds (60_exceptions.md R193; log 8). -/
theorem portRead_setHostLog (p : Port) :
    (s.setHostLog log).portRead p =
      ((s.portRead p).1, (s.portRead p).2.setHostLog (log ++ [.portRead p (s.portRead p).1])) := by
  unfold State.portRead
  split <;> rfl

/-! ### Meanings from another log -/

/-- An instruction that makes no call does the same from another log, and leaves that one. -/
theorem exec_setHostLog_of_quiet {i : Instr} (h : hostCalls i s = []) :
    exec i (s.setHostLog log) = onNext (·.setHostLog log) (exec i s) := by
  cases i
  case inAlDx | outDxAl | intImm8 => nomatch h
  case movR8Imm | movR32Imm | incR32 | cmpAlImm8 | cmpEaxImm32 | jmpRel8 | jmpRel32 => rfl
  case movRm32Imm | movRm32R32 | movR32Rm32 =>
    simp [exec, execMovRm32Imm, execMovRm32R32, execMovR32Rm32]
  case movR8Rm8 | movRm8R8 => simp [exec, execMovR8Rm8, execMovRm8R8]
  case addRm32R32 | addRm32Imm8 | incRm32 =>
    simp [exec, execAddRm32R32, execAddRm32Imm8, execIncRm32]
  case subRm32Imm8 | cmpRm32Imm8 | cmpR32Rm32 =>
    simp [exec, execSubRm32Imm8, execCmpRm32Imm8, execCmpR32Rm32]
  case pushR32 | pushImm8 | pushImm32 | callRel32 =>
    simp [exec, execPushR32, execPushImm8, execPushImm32, execCallRel32]
  case popR32 | ret | leave => simp [exec, execPopR32, execRet, execLeave]
  case jo | jno | jc | jnc | jz | jnz | js | jns | jl | jle => exact jumpIf_setHostLog log _ _

/-- From another log an instruction does the same, and appends its calls to that one. -/
theorem exec_setHostLog (i : Instr) (s : State) :
    exec i (s.setHostLog log) =
      onNext (·.setHostLog (log ++ hostCalls i s)) (exec i s) := by
  by_cases hquiet : hostCalls i s = []
  · rw [hquiet, List.append_nil]
    exact exec_setHostLog_of_quiet log hquiet
  · cases i
    case inAlDx =>
      have hdx : (s.setHostLog log).dx = s.dx := rfl
      rw [exec_inAlDx, hdx, portRead_setHostLog]
      rfl
    case outDxAl => rfl
    case intImm8 vec => rw [exec_intImm8, exec_intImm8]; rfl
    all_goals exact absurd rfl hquiet

/-- What a meaning that answers a next state has put on the log (60_exceptions.md R192). -/
theorem exec_hostLog {i : Instr} (h : exec i s = .next t) :
    t.hostLog = s.hostLog ++ hostCalls i s := by
  have hself : exec i s = onNext (·.setHostLog (s.hostLog ++ hostCalls i s)) (exec i s) :=
    exec_setHostLog s.hostLog i s
  rw [h, onNext_next] at hself
  exact congrArg State.hostLog (Host.Outcome.next.inj hself)

/-- The console reads a meaning counts are those among its calls (log 10). -/
theorem exec_consoleReads {i : Instr} (h : exec i s = .next t) :
    t.consoleReads = s.consoleReads + ((hostCalls i s).filter isConsoleRead).length := by
  obtain ⟨calls, hlog, hcount⟩ := (exec_touches h).calls
  rw [hcount, List.append_cancel_left (hlog.symm.trans (exec_hostLog h))]

theorem hostCalls_of_not_io {i : Instr} (s : State) (hin : i ≠ .inAlDx) (hout : i ≠ .outDxAl)
    (hint : ∀ v, i ≠ .intImm8 v) : hostCalls i s = [] := by
  unfold hostCalls
  split
  · exact absurd rfl hin
  · exact absurd rfl hout
  · exact absurd rfl (hint _)
  · rfl

theorem hostCalls_consoleReads {i : Instr} (s : State) (hin : i ≠ .inAlDx) :
    (hostCalls i s).filter isConsoleRead = [] := by
  unfold hostCalls
  split
  · exact absurd rfl hin
  · rfl
  · unfold interruptCall
    split <;> rfl
  · rfl

/-! ### Steps from another log -/

/-- The fetch appends its trace line to another log as to its own (30_encoding.md R76). -/
theorem traceFetch_setHostLog (s : State) :
    (s.setHostLog log).traceFetch = s.traceFetch.setHostLog (log ++ traceLine s) :=
  congrArg s.setHostLog (traceFetch_hostLog (s.setHostLog log))

theorem haltAtZero_setHostLog : (s.setHostLog log).haltAtZero = s.haltAtZero.setHostLog log := by
  rw [State.haltAtZero, State.haltAtZero, apply_ite (State.setHostLog · log)]
  rfl

theorem afterHandler_setHostLog (r : Result) :
    afterHandler (onNext (·.setHostLog log) r) = onNext (·.setHostLog log) (afterHandler r) := by
  cases r with
  | next t => exact congrArg Host.Outcome.next (haltAtZero_setHostLog log)
  | fault f => rfl
  | refused r => rfl

theorem reject_setHostLog (e : Reject) :
    (s.setHostLog log).reject e = onNext (·.setHostLog log) (s.reject e) := by
  cases e <;> rfl

/-- A step that fetches an opcode does the same from another log, and appends its trace line and its
instruction's calls to that one (30_encoding.md R76, R80). -/
theorem step_setHostLog_of_fetch (hr : s.run = .running) (hm : s.eip.toNat < Config.memSize) :
    ∃ calls, ∀ log, step (s.setHostLog log) =
      onNext (·.setHostLog (log ++ traceLine s ++ calls)) (step s) := by
  match hd : decode s.codeBytes with
  | .error e =>
    refine ⟨[], fun log => ?_⟩
    rw [step_rejected hr hm hd, step_rejected (s := s.setHostLog log) hr hm hd,
      traceFetch_setHostLog, reject_setHostLog, List.append_nil]
  | .ok (i, rest) =>
    refine ⟨hostCalls i s.traceFetch, fun log => ?_⟩
    rw [step_decoded hr hm hd, step_decoded (s := s.setHostLog log) hr hm hd,
      traceFetch_setHostLog, exec_setHostLog, afterHandler_setHostLog]

/-- Every step does the same from another log, and appends the same calls to it (30_encoding.md
R80). -/
theorem step_setHostLog (s : State) :
    ∃ calls, ∀ log, step (s.setHostLog log) =
      onNext (·.setHostLog (log ++ calls)) (step s) := by
  by_cases hr : s.run = .running
  · by_cases hm : s.eip.toNat < Config.memSize
    · obtain ⟨calls, hstep⟩ := step_setHostLog_of_fetch hr hm
      exact ⟨traceLine s ++ calls, fun log => by rw [hstep, List.append_assoc]⟩
    · have hout (log : List HostEvent) :=
        step_outOfRange (s := s.setHostLog log) hr (Nat.le_of_not_lt hm)
      refine ⟨[], fun log => ?_⟩
      rw [hout, step_outOfRange hr (Nat.le_of_not_lt hm), List.append_nil]
      rfl
  · exact ⟨[], fun log => by rw [step_ended hr, step_ended (s := s.setHostLog log) hr]; rfl⟩

/-! ### The log after a step -/

/-- Beside the fault of a running step the log has gained its trace line alone (30_encoding.md R76;
log 7). -/
theorem hostLogAfterStep_of_running_fault {f : Fault} (hr : s.run = .running)
    (h : step s = .fault f) : s.hostLogAfterStep = s.hostLog ++ traceLine s := by
  have hfetch : s.hostLogAtFault f = s.traceFetch.hostLog := by
    obtain ⟨t, ht⟩ | ⟨op, mod, reg, rm, hf⟩ | ⟨a, n, kind, hf, -⟩ := stepEndsInANamedWay s hr
    · nomatch ht.symm.trans h
    · cases hf.symm.trans h; rfl
    · cases hf.symm.trans h; rfl
  exact (hostLogAfterStep_fault h).trans (hfetch.trans (traceFetch_hostLog s))

/-- A step that fetches an opcode puts its trace line on the log first (30_encoding.md R76). -/
theorem hostLogAfterStep_of_fetch (hr : s.run = .running) (hm : s.eip.toNat < Config.memSize) :
    ∃ calls, s.hostLogAfterStep = s.hostLog ++ traceLine s ++ calls := by
  obtain ⟨calls, hstep⟩ := step_setHostLog_of_fetch hr hm
  have hself : step s = onNext (·.setHostLog (s.hostLog ++ traceLine s ++ calls)) (step s) :=
    hstep s.hostLog
  obtain ⟨t, ht⟩ | ⟨op, mod, reg, rm, hf⟩ | ⟨a, n, kind, hf, -⟩ := stepEndsInANamedWay s hr
  · rw [ht, onNext_next] at hself
    exact ⟨calls, (hostLogAfterStep_next ht).trans
      (congrArg State.hostLog (Host.Outcome.next.inj hself))⟩
  · exact ⟨[], by rw [hostLogAfterStep_of_running_fault hr hf, List.append_nil]⟩
  · exact ⟨[], by rw [hostLogAfterStep_of_running_fault hr hf, List.append_nil]⟩

/-- A step that fetches no opcode leaves the log (30_encoding.md R79; 10_state.md R34). -/
theorem hostLogAfterStep_of_no_fetch (h : s.run ≠ .running ∨ Config.memSize ≤ s.eip.toNat) :
    s.hostLogAfterStep = s.hostLog := by
  by_cases hr : s.run = .running
  · have hout := step_outOfRange hr (h.resolve_left (not_not_intro hr))
    exact (hostLogAfterStep_next hout).trans s.exitOutOfRange_hostLog
  · exact hostLogAfterStep_fault (step_ended hr)

end HostLog

/-- Settles O21: a step does the same from another log (`step_setHostLog`), and what is on the log
after it, by whether it fetches an opcode and whether it faults. -/
theorem hostLogIsOnlyAppended : Obligations.HostLogIsOnlyAppended := by
  refine ⟨fun s => ?_, fun _ _ => hostLogAfterStep_next,
    fun s hr hm => ⟨hostLogAfterStep_of_fetch hr hm, fun _ => hostLogAfterStep_of_running_fault hr⟩,
    fun _ => hostLogAfterStep_of_no_fetch⟩
  obtain ⟨calls, hstep⟩ := step_setHostLog s
  exact ⟨fun t ht => ⟨calls, fun log => (hstep log).trans (congrArg (onNext _) ht)⟩,
    fun f hf log => (hstep log).trans (congrArg (onNext _) hf)⟩

/-- Settles O59: the run state by the frame of every instruction, the log and the count by the calls
it makes (`exec_hostLog`, `exec_consoleReads`). -/
theorem onlyIoInstructionsCallTheHost : Obligations.OnlyIoInstructionsCallTheHost := by
  refine fun i s t h => ⟨(exec_touches h).run, fun hin => ?_, fun hin hout hint => ?_⟩
  · rw [exec_consoleReads h, hostCalls_consoleReads s hin]
    rfl
  · rw [exec_hostLog h, hostCalls_of_not_io s hin hout hint, List.append_nil]

end Sys2Proof.Machine

/-! SUPPORT. Every launch meets the invariant (70_reset_and_hazards.md R210, R211). -/

namespace Sys2Proof.Machine

/-- A launched state is running, has called no collaborator, and its memory is the initial memory
with the image placed. -/
theorem launch_eq_some {l : Launch} {s : State} (h : State.launch l = some s) :
    s.mem = Memory.place l.initMem l.loadAddr.toNat l.image ∧ s.run = .running ∧
      s.hostLog = [] ∧ s.consoleReads = 0 := by
  unfold State.launch at h
  split at h
  · cases h
    exact ⟨rfl, rfl, rfl, rfl⟩
  · nomatch h

/-- A running state's run value always fits. -/
theorem runCoherent_of_running {s : State} (hr : s.run = .running) : RunCoherent s := by
  unfold RunCoherent
  rw [hr]
  trivial

/-- Settles O19: placing the image keeps the canonical form (`Memory.place_wf`), and no console read
is made before the first step. -/
theorem launchMeetsTheInvariant : Obligations.LaunchMeetsTheInvariant := by
  intro l s hwf h
  obtain ⟨hmem, hrun, hlog, hreads⟩ := launch_eq_some h
  refine ⟨?_, runCoherent_of_running hrun, ?_⟩
  · rw [hmem]
    exact Memory.place_wf _ _ hwf
  · rw [hreads, hlog]
    rfl

end Sys2Proof.Machine

/-! SUPPORT. The spec's example words are encodings (95_test_vectors.md sections 1 and 2). -/

namespace Sys2Proof.Machine

/-- Bytes that are exactly a well-formed instruction's encoding decode to it, with none left. -/
theorem decode_of_encode_eq {i : Instr} {bs : List Byte} (hwf : i.wf = true)
    (henc : encode i = bs) : decode bs = .ok (i, []) := by
  rw [← henc, ← List.append_nil (encode i)]
  exact decode_encode i [] hwf

/-- Settles O3: each word is the encoding of a well-formed instruction (`decode_of_encode_eq`). -/
theorem workedExamplesDecode : Obligations.WorkedExamplesDecode := by
  refine ⟨?_, ?_, ?_, ?_, ?_, ?_, ?_, ?_, ?_, ?_⟩ <;>
    exact decode_of_encode_eq (by decide) (by decide)

end Sys2Proof.Machine
